-- ==== Sys2Proof/Word.lean ====
section
/-! DEFINITION. The word types of the block: 32-bit values (R8), bytes of the buffer space (R51), byte offsets of the register window (R56). -/

namespace Sys2Proof

/-- A 32-bit value: every register and every intermediate value of the hash (R8). -/
abbrev Word := BitVec 32

/-- A byte of the buffer space (R51, R55). -/
abbrev Byte := BitVec 8

/-- A byte offset in the 64-byte register window, 0x00 to 0x3F (R56; log 14). -/
abbrev Offset := BitVec 6

end Sys2Proof
end

