-- ==== Sys2Proof/Config.lean ====
section
/-! DEFINITION. What is fixed for the block (R7, R24) and the one free value (R62). -/

namespace Sys2Proof

/-- DEFAULT_SEED = 104729 (R7, R31). -/
def Config.defaultSeed : Word := 0x00019919#32

/-- The constant the ID register reads as: "M3M" and the interface version 1 (R24). -/
def Config.idWord : Word := 0x4D334D01#32

/-- The number of indices a 32-bit buffer-space index can name (R51). -/
def Config.bufferSpace : Nat := 0x100000000

/-- FREE VALUE (R62, U4; log 5): which of the answers an index has had since the HASH was accepted a
read of that changed index sees. Nothing in Lean can evaluate it. Applied to `State.draws`. -/
opaque Config.freePick : Nat → Nat

end Sys2Proof
end

