-- ==== Sys2Proof/Syntax.lean ====
section
/-! DEFINITION. The commands of the block: one constructor per row of spec/opcode_table.json (R73). -/

namespace Sys2Proof

/-- A command (R73). Only TAIL carries an operand, its byte count N (R70, R71). -/
inductive Instr where
  /-- NOP, R190. -/
  | nop
  /-- INIT, R102. -/
  | init
  /-- MIX, R103. -/
  | mix
  /-- TAIL with byte count N, R172. -/
  | tail (n : Nat)
  /-- FINAL, R122. -/
  | final
  /-- HASH, R141. -/
  | hash
  /-- CLRF, R191. -/
  | clrf
  /-- SRST, R192. -/
  | srst
  deriving DecidableEq, Repr

end Sys2Proof
end

