-- ==== Sys2Proof/WellFormed.lean ====
section
/-! DEFINITION. Which command terms have an encoding (R70, R73). -/

namespace Sys2Proof

/-- A command is well formed when its operand fits its field: TAIL's N is 0 to 3 (R70, R72). -/
def Instr.wellFormed : Instr → Bool
  | .nop => true
  | .init => true
  | .mix => true
  | .tail n => decide (n < 4)
  | .final => true
  | .hash => true
  | .clrf => true
  | .srst => true

end Sys2Proof
end

