-- ==== Sys2Proof/Decode.lean ====
section
/-! DEFINITION. The total decoder of R74, and after it the encoder of R73. -/

namespace Sys2Proof

/-- Why a word is illegal (R74, R75). -/
inductive DecodeError where
  /-- A reserved bit [31:10] is set. -/
  | reservedBits
  /-- N is nonzero in a word whose OPC is not TAIL's. -/
  | countOutsideTail
  /-- OPC is not assigned. -/
  | unassignedOpcode
  deriving DecidableEq, Repr

/-- The field OPC, w[7:0] (R70). -/
def opcField (w : Word) : BitVec 8 := w.extractLsb' 0 8

/-- The field N, w[9:8] (R70). -/
def countField (w : Word) : BitVec 2 := w.extractLsb' 8 2

/-- The field RSV, w[31:10] (R70). -/
def reservedField (w : Word) : BitVec 22 := w.extractLsb' 10 22

/-- The command an OPC other than TAIL's stands for (R73, the `case` of R74). -/
def decodeOpcode (opc : BitVec 8) : Except DecodeError Instr :=
  if opc = 0x00#8 then .ok .nop
  else if opc = 0x01#8 then .ok .init
  else if opc = 0x02#8 then .ok .mix
  else if opc = 0x04#8 then .ok .final
  else if opc = 0x05#8 then .ok .hash
  else if opc = 0x0E#8 then .ok .clrf
  else if opc = 0x0F#8 then .ok .srst
  else .error .unassignedOpcode

/-- The decoder of R74: every 32-bit word is a command or illegal, whatever the state (R76). -/
def decode (w : Word) : Except DecodeError Instr :=
  if reservedField w ≠ 0#22 then .error .reservedBits
  else if opcField w = 0x03#8 then .ok (.tail (countField w).toNat)
  else if countField w ≠ 0#2 then .error .countOutsideTail
  else decodeOpcode (opcField w)

/-- A word of the format CMDW with RSV = 0 (R70). -/
def commandWord (n : Nat) (opc : BitVec 8) : Word :=
  (0#22 ++ BitVec.ofNat 2 n : BitVec 24) ++ opc

/-- The command word of a well-formed command (R73). -/
def encode : Instr → Word
  | .nop => commandWord 0 0x00#8
  | .init => commandWord 0 0x01#8
  | .mix => commandWord 0 0x02#8
  | .tail n => commandWord n 0x03#8
  | .final => commandWord 0 0x04#8
  | .hash => commandWord 0 0x05#8
  | .clrf => commandWord 0 0x0E#8
  | .srst => commandWord 0 0x0F#8

/-- The 32-bit bus word whose low `nbits` bits are `w`, the bits above zero. A command is one word
written whole (R57, R70), so no byte order enters. -/
def busWord (nbits w : Nat) : Word := BitVec.ofNat 32 (w % 2 ^ nbits)

/-- What the decoder reads from a table word. -/
def decodeTableWord (nbits w : Nat) : Option Instr :=
  match decode (busWord nbits w) with
  | .ok i => some i
  | .error _ => none

end Sys2Proof
end

