-- ==== Sys2Proof/Machine/State.lean ====
section
/-! DEFINITION. The state of the block and of the agents around it, as plain data, and its reset value. -/

namespace Sys2Proof.Machine

/-- The registers of the window (R20). -/
inductive Reg where
  | id | status | cmd | arg | seed | acc | offset | length | bufsize | result | inten | finfo
  deriving DecidableEq, Repr

/-- The causes a fault is recorded with (R210). -/
inductive Cause where
  | illegalCmd | negOffset | negLength | outOfBounds | bufError | badReg
  deriving DecidableEq, Repr

/-- The STATUS register's fields; its other bits are reserved and read 0 (R25; log 12). -/
structure Status where
  busy : Bool
  done : Bool
  fault : Bool
  fcause : BitVec 4
  deriving DecidableEq, Repr

/-- The INTEN register's fields; its other bits are reserved and read 0 (R38; log 12). -/
structure IntEn where
  doneIe : Bool
  faultIe : Bool
  deriving DecidableEq, Repr

/-- S.phase (R36). -/
inductive Phase where
  | idle | blk
  deriving DecidableEq, Repr

/-- The hidden state of the sequencer (R36). -/
structure Sequencer where
  phase : Phase
  h : Word
  idx : Word
  nb : Word
  deriving DecidableEq, Repr

/-- Buffer contents: (index, byte) pairs in the canonical form `Memory.wf` (R51, R54; log 4). -/
abbrev Memory := List Host.Cell

/-- BUF's answer to a byte read: a byte or `err` (R54), or none at all (R255, U5; log 6). -/
inductive Answer where
  | ok (b : Byte)
  | err
  | withheld
  deriving DecidableEq, Repr

/-- BUF: `bufmem`, the parameter BUF_BYTES (R54), and the indices it never answers (U5; log 6). -/
structure Buf where
  mem : Memory
  bytes : Nat
  silent : List Nat
  deriving DecidableEq, Repr

/-- A HOST write: byte offset and word (R57, R59). -/
structure HostWrite where
  off : Offset
  data : Word
  deriving DecidableEq, Repr

/-- One HOST access, or the polling statement `wait` (R77, R78; log 17). -/
inductive HostOp where
  | read (off : Offset)
  | write (off : Offset) (data : Word)
  | wait
  deriving DecidableEq, Repr

/-- What moves next (R6, D2; log 1): an agent, the hardware reset (R240), or a change of the buffer
by the platform (R62; log 5). -/
inductive Turn where
  | host
  | seq
  | reset
  | buffer (a : Word) (v : Answer)
  deriving DecidableEq, Repr

/-- The whole state: the registers of R20 that hold a value (ID is a constant, CMD keeps nothing),
the hidden state of R36, BUF, and what HOST and the schedule hold. -/
structure State where
  /-- STATUS (R25). -/
  status : Status
  /-- ARG (R30). -/
  arg : Word
  /-- SEED (R31). -/
  seed : Word
  /-- ACC (R32). -/
  acc : Word
  /-- OFFSET (R33). -/
  offset : Word
  /-- LENGTH (R34). -/
  length : Word
  /-- BUFSIZE (R35). -/
  bufsize : Word
  /-- RESULT (R37). -/
  result : Word
  /-- INTEN (R38). -/
  inten : IntEn
  /-- FINFO (R39). -/
  finfo : Word
  /-- S (R36). -/
  seq : Sequencer
  /-- The buffer memory and its parameters (R51, R54). -/
  buf : Buf
  /-- Model's own (log 5): earlier answers of indices changed since the HASH was accepted (R62). -/
  stale : List (Nat × Answer)
  /-- Model's own (log 5): the counter the free choice is applied to. -/
  draws : Nat
  /-- Model's own (log 10): the indices BUF was asked for, oldest first (R63). -/
  bufReads : List Nat
  /-- Model's own (log 9): the HOST accesses not yet issued, oldest first. -/
  host : List HostOp
  /-- The HOST write the block holds (R250; log 2). -/
  held : Option HostWrite
  /-- Model's own (log 10): what HOST has read, oldest first (R77). -/
  readData : List (Offset × Word)
  /-- Model's own (log 1): what moves next; when empty, SEQ while a HASH runs, else HOST. -/
  turns : List Turn
  deriving DecidableEq, Repr

/-- Where a step stops. Both are raised by a SEQ step, only in states no run reaches. -/
inductive Fault where
  /-- Raised by a SEQ step whose read index is not a 32-bit value, so that no such index exists (R51).
  R53 rules it out in every reachable state. SAFE (log 7). -/
  | indexOutsideBufferSpace (a : Nat)
  /-- Raised by a SEQ step with S.idx above S.nb, for which R142 has no step. R36's range of S.idx
  rules it out in every reachable state. SAFE (log 7). -/
  | indexPastLastBlock
  deriving DecidableEq, Repr

/-- Where a command has no meaning. -/
inductive Refusal where
  /-- Raised by an arm of exec whose instruction has no meaning yet. SAFE. -/
  | notModelled (mnemonic : String)
  /-- Raised by TAIL with a count above 3, a term that no word decodes to (R70, R74). SAFE (log 11). -/
  | illFormedCount (n : Nat)
  deriving DecidableEq, Repr

/-- The outcome of a step of this machine. -/
abbrev Outcome := Host.Outcome State Fault Refusal

/-- What reading `n` buffer bytes comes to (R143, R144, R146). -/
inductive Fetch where
  /-- Every read answered `ok`. -/
  | bytes (bs : List Byte) (s : State)
  /-- The read of index `a` answered `err`. -/
  | error (a : Nat) (s : State)
  /-- BUF withholds an answer (R255). -/
  | hang
  /-- Index `a` does not exist. -/
  | outside (a : Nat)
  deriving DecidableEq, Repr

/-- The state after reset: R240's table, S.phase = IDLE (R36), no access pending. S.h, S.idx and S.nb
are 0 (log 3), nothing of the buffer is listed and BUF_BYTES is 2^32 (log 4). -/
def State.reset : State where
  status := { busy := false, done := false, fault := false, fcause := 0#4 }
  arg := 0#32
  seed := Config.defaultSeed
  acc := Config.defaultSeed
  offset := 0#32
  length := 0#32
  bufsize := 0#32
  result := 0#32
  inten := { doneIe := false, faultIe := false }
  finfo := 0#32
  seq := { phase := .idle, h := 0#32, idx := 0#32, nb := 0#32 }
  buf := { mem := [], bytes := Config.bufferSpace, silent := [] }
  stale := []
  draws := 0
  bufReads := []
  host := []
  held := none
  readData := []
  turns := []

end Sys2Proof.Machine
end

