-- ==== Sys2Proof/Machine/Flags.lean ====
section
/-! DEFINITION. The STATUS and INTEN registers as words, the flag updates of R25-R28, and the interrupt output of R220. -/

namespace Sys2Proof.Machine

/-- One bit as a 32-bit value. -/
def bitWord (b : Bool) : Word := if b then 1#32 else 0#32

/-- FCAUSE's code of a cause (R210). -/
def Cause.code : Cause → BitVec 4
  | .illegalCmd => 1#4
  | .negOffset => 2#4
  | .negLength => 3#4
  | .outOfBounds => 4#4
  | .bufError => 5#4
  | .badReg => 6#4

/-- STATUS as HOST reads it: BUSY 0, DONE 1, FAULT 2, FCAUSE 7:4, the rest 0 (R25). -/
def Status.word (st : Status) : Word :=
  bitWord st.busy ||| (bitWord st.done <<< 1) ||| (bitWord st.fault <<< 2) |||
    (st.fcause.setWidth 32 <<< 4)

/-- INTEN as HOST reads it (R38). -/
def IntEn.word (e : IntEn) : Word :=
  bitWord e.doneIe ||| (bitWord e.faultIe <<< 1)

/-- What a HOST write of `w` leaves in INTEN: bits [1:0], the others ignored (R38, R59). -/
def intenOfWord (w : Word) : IntEn :=
  { doneIe := w.getLsbD 0, faultIe := w.getLsbD 1 }

/-- DONE <- 0 (R27, R211). -/
def clearDone (s : State) : State :=
  { s with status := { s.status with done := false } }

/-- DONE <- 1 (R27). -/
def setDone (s : State) : State :=
  { s with status := { s.status with done := true } }

/-- The interrupt output (R220). -/
def irq (s : State) : Bool :=
  (s.status.done && s.inten.doneIe) || (s.status.fault && s.inten.faultIe)

end Sys2Proof.Machine
end

