-- ==== Sys2Proof/Machine/Operands.lean ====
section
/-! DEFINITION. Operand assembly (R55, R72) and the window's register decode (R20, R56). -/

namespace Sys2Proof.Machine

/-- `rotl(a, r)` for 0 < r < 32 (R9). -/
def rotl (a : Word) (r : Nat) : Word := (a <<< r) ||| (a >>> (32 - r))

/-- `zext_32(b)` (R10, R55). -/
def zext32 (b : Byte) : Word := b.setWidth 32

/-- Bytes placed little-endian, the first at bit `8 * j` (R55, R170). -/
def leWord (j : Nat) : List Byte → Word
  | [] => 0#32
  | b :: bs => (zext32 b <<< (8 * j)) ||| leWord (j + 1) bs

/-- The byte `v[8j+7 : 8j]` (R172). -/
def byteOf (v : Word) (j : Nat) : Byte := v.extractLsb' (8 * j) 8

/-- TAIL's bytes b_0 .. b_{n-1}, the low bytes of ARG (R72, R172). -/
def argBytes (n : Nat) (arg : Word) : List Byte := (List.range n).map (byteOf arg)

/-- Bit 31 set: the value stands for a negative offset or length (R33, R34). -/
def negative (v : Word) : Bool := v.getLsbD 31

/-- `len >>> 2`, the number of full blocks (R9, R36). -/
def blockCount (len : Word) : Word := len >>> 2

/-- `len & 3`, the number of tail bytes (R9, R144). -/
def tailCount (len : Word) : Nat := (len &&& 3#32).toNat

/-- The register at a byte offset; none at an unmapped or misaligned offset (R20, R57). -/
def regAt (off : Offset) : Option Reg :=
  if off = 0x00#6 then some .id
  else if off = 0x04#6 then some .status
  else if off = 0x08#6 then some .cmd
  else if off = 0x0C#6 then some .arg
  else if off = 0x10#6 then some .seed
  else if off = 0x14#6 then some .acc
  else if off = 0x18#6 then some .offset
  else if off = 0x1C#6 then some .length
  else if off = 0x20#6 then some .bufsize
  else if off = 0x24#6 then some .result
  else if off = 0x28#6 then some .inten
  else if off = 0x2C#6 then some .finfo
  else none

/-- The byte offset of a register (R20). -/
def regOffset : Reg → Offset
  | .id => 0x00#6
  | .status => 0x04#6
  | .cmd => 0x08#6
  | .arg => 0x0C#6
  | .seed => 0x10#6
  | .acc => 0x14#6
  | .offset => 0x18#6
  | .length => 0x1C#6
  | .bufsize => 0x20#6
  | .result => 0x24#6
  | .inten => 0x28#6
  | .finfo => 0x2C#6

end Sys2Proof.Machine
end

