-- ==== Sys2Proof/Machine/Ops.lean ====
section
/-! DEFINITION. The operations the commands and the sequencer share: buffer memory, register reads, the fault action and the ways back from it, and the accept step. -/

namespace Sys2Proof.Machine

/-! ### Buffer memory (R51, R54) -/

/-- The byte listed at index `a`, if one is. -/
def Memory.read : Memory → Nat → Option Byte
  | [], _ => none
  | (k, b) :: m, a => if a = k then some b else Memory.read m a

/-- List byte `b` at index `a`, keeping the indices rising. -/
def Memory.write : Memory → Nat → Byte → Memory
  | [], a, b => [(a, b)]
  | (k, x) :: m, a, b =>
    if a < k then (a, b) :: (k, x) :: m
    else if a = k then (a, b) :: m
    else (k, x) :: Memory.write m a b

/-- Take the entry at index `a` away. -/
def Memory.erase : Memory → Nat → Memory
  | [], _ => []
  | (k, x) :: m, a => if a = k then m else (k, x) :: Memory.erase m a

/-- What an unlisted index answers (log 4). An entry holds a byte, so none equals it. -/
def Memory.unlisted : Answer := .err

/-- The canonical form: indices strictly rising, each below 2^32. -/
abbrev Memory.wf (m : Memory) : Prop :=
  m.Pairwise (fun x y => x.1 < y.1) ∧ ∀ c ∈ m, c.1 < Config.bufferSpace

/-- Add index `a` to a rising list of indices. -/
def insertIndex : List Nat → Nat → List Nat
  | [], a => [a]
  | k :: l, a => if a < k then a :: k :: l else if a = k then k :: l else k :: insertIndex l a

/-- The canonical form of a list of indices: strictly rising, each below 2^32. -/
abbrev indicesWf (l : List Nat) : Prop :=
  l.Pairwise (fun x y => x < y) ∧ ∀ k ∈ l, k < Config.bufferSpace

/-- BUF's answer to `MemRead(a, 1)` from its present contents: nothing at a withheld index (R255,
log 6), `err` at and above BUF_BYTES and where nothing is backed, else the byte (R54). -/
def Buf.answer (b : Buf) (a : Nat) : Answer :=
  if a ∈ b.silent then .withheld
  else if b.bytes ≤ a then .err
  else match Memory.read b.mem a with
    | some x => .ok x
    | none => Memory.unlisted

/-- The platform makes `v` the answer of index `a` (R62; log 5). -/
def Buf.change (b : Buf) (a : Nat) : Answer → Buf
  | .ok x => { b with mem := Memory.write b.mem a x, silent := b.silent.filter (· ≠ a) }
  | .err => { b with mem := Memory.erase b.mem a, silent := b.silent.filter (· ≠ a) }
  | .withheld => { b with silent := insertIndex b.silent a }

/-- The earlier answers of index `a` since the HASH was accepted (R62; log 5). -/
def staleAt (s : State) (a : Nat) : List Answer :=
  (s.stale.filter (fun c => c.1 = a)).map Prod.snd

/-- A free choice between the present answer and the earlier ones (R62; log 5). -/
def pickAnswer (n : Nat) (now : Answer) (old : List Answer) : Answer :=
  (now :: old).getD (Config.freePick n % (old.length + 1)) now

/-- BUF's record of requests grows by `a` (R63; log 10). -/
def noteRead (a : Nat) (s : State) : State :=
  { s with bufReads := s.bufReads ++ [a] }

/-- `MemRead(a, 1)` (R10, R54). At an index changed since the accept, the answer is the present one or
an earlier one, a free choice (R62; log 5). -/
def memRead (a : Nat) (s : State) : Answer × State :=
  if staleAt s a = [] then (s.buf.answer a, noteRead a s)
  else (pickAnswer s.draws (s.buf.answer a) (staleAt s a),
    { noteRead a s with draws := s.draws + 1 })

/-- `n` byte reads from index `a` upwards, stopping at the first that does not answer a byte (R143,
R144, R146). -/
def readBytes : Nat → Nat → State → Fetch
  | 0, _, s => .bytes [] s
  | n + 1, a, s =>
    if Config.bufferSpace ≤ a then .outside a
    else match memRead a s with
      | (.ok b, t) =>
        match readBytes n (a + 1) t with
        | .bytes bs u => .bytes (b :: bs) u
        | .error a' u => .error a' u
        | .hang => .hang
        | .outside a' => .outside a'
      | (.err, t) => .error a t
      | (.withheld, _) => .hang

/-- The platform changes the answer of index `a` between two steps; while a HASH runs the earlier
answer stays a possible one (R62; log 5). -/
def changeBuffer (a : Word) (v : Answer) (s : State) : State :=
  { s with
    buf := s.buf.change a.toNat v
    stale := match s.seq.phase with
      | .blk => s.stale ++ [(a.toNat, s.buf.answer a.toNat)]
      | .idle => s.stale }

/-! ### Registers (R20) -/

/-- What a HOST read of a register returns (R58): ID is a constant (R24), CMD reads 0 (R29). -/
def readReg : Reg → State → Word
  | .id, _ => Config.idWord
  | .status, s => s.status.word
  | .cmd, _ => 0#32
  | .arg, s => s.arg
  | .seed, s => s.seed
  | .acc, s => s.acc
  | .offset, s => s.offset
  | .length, s => s.length
  | .bufsize, s => s.bufsize
  | .result, s => s.result
  | .inten, s => s.inten.word
  | .finfo, s => s.finfo

/-- What a HOST read at a byte offset returns: 0 where no register is (R58). -/
def hostReadValue (off : Offset) (s : State) : Word :=
  match regAt off with
  | some r => readReg r s
  | none => 0#32

/-! ### The fault action and the ways back (R213, R217) -/

/-- `raise Fault(c, info)` (R213): record the cause if none is recorded, clear DONE and BUSY, end any
HASH. Nothing else changes. -/
def raiseFault (c : Cause) (info : Word) (s : State) : State :=
  { s with
    status :=
      { busy := false
        done := false
        fault := true
        fcause := if s.status.fault then s.status.fcause else c.code }
    finfo := if s.status.fault then s.finfo else info
    seq := { s.seq with phase := .idle } }

/-- CLRF's way back: FAULT, FCAUSE and FINFO <- 0 (R191, R217). -/
def clearFault (s : State) : State :=
  { s with status := { s.status with fault := false, fcause := 0#4 }, finfo := 0#32 }

/-- `reset_state()` (R240): every register and the hidden state at the reset values. The buffer space
and what HOST and the schedule hold stay (R240, R192). -/
def resetState (s : State) : State :=
  { s with
    status := State.reset.status
    arg := State.reset.arg
    seed := State.reset.seed
    acc := State.reset.acc
    offset := State.reset.offset
    length := State.reset.length
    bufsize := State.reset.bufsize
    result := State.reset.result
    inten := State.reset.inten
    finfo := State.reset.finfo
    seq := State.reset.seq
    stale := [] }

/-- The hardware reset input (R240): `reset_state()`, and a held write is discarded (R250;
log 13). -/
def hardwareReset (s : State) : State :=
  { resetState s with held := none }

/-! ### The accept step (R211) -/

/-- Whether the accept step lets a legal command pass: while FAULT = 1 only CLRF and SRST (R212). -/
def accepts (s : State) : Instr → Bool
  | .nop => !s.status.fault
  | .init => !s.status.fault
  | .mix => !s.status.fault
  | .tail _ => !s.status.fault
  | .final => !s.status.fault
  | .hash => !s.status.fault
  | .clrf => true
  | .srst => true

/-- The accept step of a legal command `i` with the given body (R211): dropped with no effect (R212),
or DONE <- 0 and then the body. It takes place only while BUSY = 0 (log 8). -/
def accept (i : Instr) (body : State → State) (s : State) : Outcome :=
  if accepts s i then .next (body (clearDone s)) else .next s

end Sys2Proof.Machine
end

