-- ==== Sys2Proof/Machine/Finaliser.lean ====
section
/-! DEFINITION. The finaliser family: `fmix`, FINAL (spec/41_finalize.md). -/

namespace Sys2Proof.Machine

/-- One XOR-shift step `h ^ (h >>> r)` of R120. -/
def xorShift (h : Word) (r : Nat) : Word := h ^^^ (h >>> r)

/-- `fmix(n, h)` (R120). -/
def fmix (n h : Word) : Word :=
  xorShift (xorShift (xorShift (h ^^^ n) 16 * 0x85ebca6b#32) 13 * 0xc2b2ae35#32) 16

/-- FINAL (R122). -/
def execFinal (s : State) : Outcome :=
  accept .final (fun t => setDone { t with acc := fmix t.arg t.acc, result := fmix t.arg t.acc }) s

end Sys2Proof.Machine
end

