-- ==== Sys2Proof/Machine/Mixer.lean ====
section
/-! DEFINITION. The mixer family: `scramble`, `mix`, INIT, MIX (spec/40_mixer.md). -/

namespace Sys2Proof.Machine

/-- `scramble(k)` (R100). -/
def scramble (k : Word) : Word :=
  rotl (k * 0xcc9e2d51#32) 15 * 0x1b873593#32

/-- `mix(k, h)` (R101): `(h *w 5) +w 0xe6546b64` after the rotate. The addend stands first, which the
sum does not see. -/
def mix (k h : Word) : Word :=
  0xe6546b64#32 + rotl (h ^^^ scramble k) 13 * 5#32

/-- INIT (R102). -/
def execInit (s : State) : Outcome :=
  accept .init (fun t => setDone { t with acc := t.seed }) s

/-- MIX (R103). -/
def execMix (s : State) : Outcome :=
  accept .mix (fun t => setDone { t with acc := mix t.arg t.acc }) s

end Sys2Proof.Machine
end

