-- ==== Sys2Proof/Machine/TailHandler.lean ====
section
/-! DEFINITION. The tail handler family: `tailword`, `tailfold`, TAIL (spec/43_tail_handler.md). -/

namespace Sys2Proof.Machine

/-- `tailword(b, t)` with t the number of bytes (R170). -/
def tailword (bs : List Byte) : Word := leWord 0 bs

/-- `tailfold(h, k1, t)` (R171): the tail word is scrambled and XORed in; the accumulator is not
rotated, multiplied or added to. -/
def tailfold (h k1 : Word) (t : Nat) : Word :=
  if t = 0 then h else h ^^^ scramble k1

/-- TAIL with byte count `n` (R172). A count above 3 has no encoding (log 11). -/
def execTail (n : Nat) (s : State) : Outcome :=
  if n < 4 then
    accept (.tail n)
      (fun t => setDone { t with acc := tailfold t.acc (tailword (argBytes n t.arg)) n }) s
  else .refused (.illFormedCount n)

end Sys2Proof.Machine
end

