-- ==== Sys2Proof/Machine/BufferPath.lean ====
section
/-! DEFINITION. The byte-buffer path: `murmur3_32`, HASH's accept step, and the sequencer's steps (spec/42_byte_buffer_path.md). -/

namespace Sys2Proof.Machine

/-- The `n` bytes of `bytes` from index `a` upwards. -/
def byteRange (bytes : Nat → Byte) : Nat → Nat → List Byte
  | _, 0 => []
  | a, n + 1 => bytes a :: byteRange bytes (a + 1) n

/-- The accumulator after the first `i` full blocks of the bytes from index `off`, starting from `h`
(the loop of R140). -/
def mixBlocks (bytes : Nat → Byte) (off : Nat) (h : Word) : Nat → Word
  | 0 => h
  | i + 1 => mix (leWord 0 (byteRange bytes (off + 4 * i) 4)) (mixBlocks bytes off h i)

/-- `murmur3_32(bytes, off, len, seed)` (R140). -/
def murmur3 (bytes : Nat → Byte) (off len : Nat) (seed : Word) : Word :=
  fmix (BitVec.ofNat 32 len)
    (tailfold (mixBlocks bytes off seed (len / 4))
      (tailword (byteRange bytes (off + 4 * (len / 4)) (len - 4 * (len / 4))))
      (len - 4 * (len / 4)))

/-- The part of HASH's accept step that starts SEQ (R141). -/
def startSequencer (s : State) : State :=
  { s with
    seq := { phase := .blk, h := s.seed, idx := 0#32, nb := blockCount s.length }
    status := { s.status with busy := true }
    stale := [] }

/-- The body of HASH's accept step: the checks in R214's order, then the start (R141). -/
def hashBody (s : State) : State :=
  if negative s.offset then raiseFault .negOffset s.offset s
  else if negative s.length then raiseFault .negLength s.length s
  else if s.bufsize.toNat < s.offset.toNat + s.length.toNat then
    raiseFault .outOfBounds (BitVec.ofNat 32 (s.offset.toNat + s.length.toNat)) s
  else startSequencer s

/-- HASH, its accept step (R141). The rest of the command is `seqStep`. -/
def execHash (s : State) : Outcome :=
  accept .hash hashBody s

/-- `complete(v)` (R145). -/
def complete (v : Word) (s : State) : State :=
  { s with
    acc := v
    result := v
    seq := { s.seq with phase := .idle }
    status := { s.status with busy := false, done := true } }

/-- What SEQ does when its reads are over: `k` on the bytes read, BUF_ERROR at the first index
answered `err` (R146), no step where BUF withholds an answer (R255; log 6). -/
def afterFetch (s : State) (k : List Byte → State → State) : Fetch → Outcome
  | .bytes bs t => .next (k bs t)
  | .error a t => .next (raiseFault .bufError (BitVec.ofNat 32 a) t)
  | .hang => .next s
  | .outside a => .fault (.indexOutsideBufferSpace a)

/-- The state change of a block step once its four bytes are read (R143). -/
def mixBlock (bs : List Byte) (s : State) : State :=
  { s with seq := { s.seq with h := mix (leWord 0 bs) s.seq.h, idx := s.seq.idx + 1#32 } }

/-- The block step (R143). -/
def blockStep (s : State) : Outcome :=
  afterFetch s mixBlock (readBytes 4 (s.offset.toNat + 4 * s.seq.idx.toNat) s)

/-- S.h <- tailfold(S.h, tailword(bytes), t) with t the number of bytes (R144). -/
def foldTail (bs : List Byte) (s : State) : State :=
  { s with seq := { s.seq with h := tailfold s.seq.h (tailword bs) bs.length } }

/-- The state change of the final step once its tail bytes are read (R144, R145). -/
def finishHash (bs : List Byte) (s : State) : State :=
  complete (fmix s.length (foldTail bs s).seq.h) (foldTail bs s)

/-- The final step (R144). -/
def finalStep (s : State) : Outcome :=
  afterFetch s finishHash
    (readBytes (tailCount s.length) (s.offset.toNat + 4 * s.seq.nb.toNat) s)

/-- SEQ's step: none while IDLE, else the block step or the final step (R142). -/
def seqStep (s : State) : Outcome :=
  match s.seq.phase with
  | .idle => .next s
  | .blk =>
    if s.seq.idx.toNat < s.seq.nb.toNat then blockStep s
    else if s.seq.idx = s.seq.nb then finalStep s
    else .fault .indexPastLastBlock

end Sys2Proof.Machine
end

