-- ==== Sys2Proof/Machine/Control.lean ====
section
/-! DEFINITION. The control family: NOP, CLRF, SRST (spec/44_control.md). -/

namespace Sys2Proof.Machine

/-- NOP (R190). -/
def execNop (s : State) : Outcome :=
  accept .nop setDone s

/-- CLRF (R191). -/
def execClrf (s : State) : Outcome :=
  accept .clrf (fun t => setDone (clearFault t)) s

/-- SRST (R192). -/
def execSrst (s : State) : Outcome :=
  accept .srst resetState s

end Sys2Proof.Machine
end

