-- ==== Sys2Proof/Machine/Dispatch.lean ====
section
/-! DEFINITION. The dispatch: one arm per command, each one call of its meaning (R211). -/

namespace Sys2Proof.Machine

/-- The accept step of a legal command (R211). -/
def exec (i : Instr) (s : State) : Host.Outcome State Fault Refusal :=
  match i with
  | .nop => Sys2Proof.Machine.execNop s
  | .init => Sys2Proof.Machine.execInit s
  | .mix => Sys2Proof.Machine.execMix s
  | .tail n => Sys2Proof.Machine.execTail n s
  | .final => Sys2Proof.Machine.execFinal s
  | .hash => Sys2Proof.Machine.execHash s
  | .clrf => Sys2Proof.Machine.execClrf s
  | .srst => Sys2Proof.Machine.execSrst s

end Sys2Proof.Machine
end

