-- ==== Sys2Proof/Machine/Bus.lean ====
section
/-! DEFINITION. The steps of HOST: the accept step of any word (R211), register writes and reads (R58, R59), the write stall (R250), polling (R78). -/

namespace Sys2Proof.Machine

/-- The accept step of a word (R211): a legal command is `exec`, an illegal word is dropped while
FAULT = 1 and otherwise raises ILLEGAL_CMD with the word as info (R74, R212). -/
def acceptWord (w : Word) (s : State) : Outcome :=
  match decode w with
  | .ok i => exec i s
  | .error _ =>
    if s.status.fault then .next s
    else .next (raiseFault .illegalCmd w (clearDone s))

/-- A refused HOST write: `raise Fault(BAD_REG, off)` (R59). -/
def refuseWrite (off : Offset) (s : State) : State :=
  raiseFault .badReg (off.setWidth 32) s

/-- A HOST write that takes its step (R59). It does so only while BUSY = 0 (R250). -/
def hostWrite (off : Offset) (w : Word) (s : State) : Outcome :=
  match regAt off with
  | some .cmd => acceptWord w s
  | some .arg => .next { s with arg := w }
  | some .seed => .next { s with seed := w }
  | some .acc => .next { s with acc := w }
  | some .offset => .next { s with offset := w }
  | some .length => .next { s with length := w }
  | some .bufsize => .next { s with bufsize := w }
  | some .inten => .next { s with inten := intenOfWord w }
  | some .id => .next (refuseWrite off s)
  | some .status => .next (refuseWrite off s)
  | some .result => .next (refuseWrite off s)
  | some .finfo => .next (refuseWrite off s)
  | none => .next (refuseWrite off s)

/-- A HOST read: no effect but the value HOST receives (R58; log 10). -/
def hostRead (off : Offset) (s : State) : State :=
  { s with readData := s.readData ++ [(off, hostReadValue off s)] }

/-- HOST's turn while it has no held write: its next access. A write is held while BUSY = 1 (R250); a
`wait` reads STATUS and is over when bit 0 of the value read is 0 (R78; log 17). -/
def issue (s : State) : Outcome :=
  match s.host with
  | [] => .next s
  | .read off :: rest => .next (hostRead off { s with host := rest })
  | .write off w :: rest =>
    if s.status.busy then .next { s with host := rest, held := some { off := off, data := w } }
    else hostWrite off w { s with host := rest }
  | .wait :: rest =>
    if (readReg .status s).getLsbD 0 then .next (hostRead (regOffset .status) s)
    else .next (hostRead (regOffset .status) { s with host := rest })

/-- HOST's turn: none while its write is held (R250). -/
def hostStep (s : State) : Outcome :=
  match s.held with
  | some _ => .next s
  | none => issue s

/-- A held write performs at the first step after BUSY is 0 (R250); otherwise the turn `o` is taken. -/
def heldFirst (s : State) (o : Outcome) : Outcome :=
  match s.status.busy, s.held with
  | false, some wr => hostWrite wr.off wr.data { s with held := none }
  | _, _ => o

/-- One step of the whole (R6, R61; log 1): a listed hardware reset (R240) or platform change (R62); or
a held write that is due; or the listed agent's turn; with no turn listed, SEQ's while a HASH runs
(R255; log 18), else HOST's. -/
def machineStep (s : State) : Outcome :=
  match s.turns with
  | .reset :: ts => .next (hardwareReset { s with turns := ts })
  | .buffer a v :: ts => .next (changeBuffer a v { s with turns := ts })
  | .host :: ts => heldFirst s (hostStep { s with turns := ts })
  | .seq :: ts => heldFirst s (seqStep { s with turns := ts })
  | [] => heldFirst s (match s.seq.phase with
    | .blk => seqStep s
    | .idle => hostStep s)

/-- HOST's next access is the write of `w` to CMD, and HOST moves next with no write held (log 9). -/
def placeCommand (w : Word) (s : State) : State :=
  { s with
    host := .write (regOffset .cmd) w :: s.host
    held := none
    turns := .host :: s.turns }

end Sys2Proof.Machine
end

