-- ==== Sys2Proof/Machine/Step.lean ====
section
/-! DEFINITION. The step of the machine, and how a command word is placed for the next step. -/

namespace Sys2Proof.Machine

/-- One step: one turn of an agent or one outside event (R6, R61; log 1). -/
def step (s : State) : Host.Outcome State Fault Refusal :=
  machineStep s

/-- `s` with the command word of `nbits` bits as HOST's next write of CMD (R29; log 9). -/
def State.withFetchWord (s : State) (nbits w : Nat) : State :=
  placeCommand (busWord nbits w) s

end Sys2Proof.Machine
end

