-- ==== Sys2Proof/Machine/Platform.lean ====
section
/-! DEFINITION. A platform: independent instances of the block, each at a place of the system's address map (R7, R69, R233). -/

namespace Sys2Proof.Machine

/-- One instance and the platform's parameters for it: REG_BASE and BUF_BASE (R7, R69; log 15). -/
structure Placed where
  regBase : Nat
  bufBase : Nat
  block : State
  deriving DecidableEq, Repr

/-- N_INSTANCES instances: the length of the list (R7, R233). -/
abbrev Platform := List Placed

/-- The system address of a window offset (R56, R69). -/
def regAddress (p : Placed) (off : Offset) : Nat := p.regBase + off.toNat

/-- The system address of a buffer-space index (R51, R69). -/
def bufAddress (p : Placed) (a : Word) : Nat := p.bufBase + a.toNat

/-- The window offset a system address names, if it lies in the instance's 64-byte window (R56). -/
def windowOffset (p : Placed) (addr : Nat) : Option Offset :=
  if p.regBase ≤ addr ∧ addr < p.regBase + 64 then some (BitVec.ofNat 6 (addr - p.regBase)) else none

/-- The platform after one step of instance `k` (R233); none where there is no such instance or its
step stops. -/
def stepInstance : Nat → Platform → Option Platform
  | _, [] => none
  | 0, p :: ps =>
    match step p.block with
    | .next t => some ({ p with block := t } :: ps)
    | .fault _ => none
    | .refused _ => none
  | k + 1, p :: ps => (stepInstance k ps).map (fun qs => p :: qs)

/-- The interrupt outputs of the instances; their routing is the platform's (R220, D21). -/
def irqs (ps : Platform) : List Bool := ps.map (fun p => irq p.block)

end Sys2Proof.Machine
end

