-- ==== Sys2Proof/Machine/Stream.lean ====
section
/-! DEFINITION. Command-stream programs: the statements of R77, the pseudo-instructions of R78, what HOST accesses they stand for, and their text. -/

namespace Sys2Proof.Machine

/-- The register operand of `wr` and `rd`: a name of R20, or `@off` (R77). -/
inductive Target where
  | reg (r : Reg)
  | raw (off : Nat)
  deriving DecidableEq, Repr

/-- A statement (R77) or pseudo-instruction (R78). Immediates are the numbers written. -/
inductive Stmt where
  | wr (t : Target) (imm : Nat)
  | rd (t : Target)
  | nop | init | mix | final | hash | clrf | srst
  | tail (n : Nat)
  | raw (imm : Nat)
  | mixImm (imm : Nat)
  | tailImm (n imm : Nat)
  | finalImm (imm : Nat)
  | seed (imm : Nat)
  | wait
  | hashbuf (off len size s : Nat)
  | hashdef (size : Nat)
  deriving DecidableEq, Repr

/-! ### What a statement stands for -/

/-- An immediate: it must fit in 32 bits unsigned, any other is refused (R77). -/
def immediate (n : Nat) : Option Word :=
  if n < 2 ^ 32 then some (BitVec.ofNat 32 n) else none

/-- A target's byte offset; `@off` names an offset of the 64-byte window (R56, R77; log 16). -/
def targetOffset : Target → Option Offset
  | .reg r => some (regOffset r)
  | .raw n => if n < 64 then some (BitVec.ofNat 6 n) else none

/-- `wr REG, imm` (R77). -/
def writeStmt (t : Target) (n : Nat) : Option (List HostOp) :=
  match targetOffset t, immediate n with
  | some off, some w => some [.write off w]
  | _, _ => none

/-- `wr CMD, <the word of the command>` (R73, R77). -/
def commandStmt (i : Instr) : Option (List HostOp) :=
  if i.wellFormed then some [.write (regOffset .cmd) (encode i)] else none

/-- One statement's accesses after another's; refused when either is. -/
def stmtThen (a b : Option (List HostOp)) : Option (List HostOp) :=
  match a, b with
  | some x, some y => some (x ++ y)
  | _, _ => none

/-- `hashbuf off, len, size, s` (R78). -/
def hashbufStmt (off len size s : Nat) : Option (List HostOp) :=
  stmtThen (writeStmt (.reg .bufsize) size)
    (stmtThen (writeStmt (.reg .offset) off)
      (stmtThen (writeStmt (.reg .length) len)
        (stmtThen (writeStmt (.reg .seed) s)
          (stmtThen (commandStmt .hash) (some [.wait])))))

/-- The HOST accesses a statement stands for; none where the assembler refuses it (R77, R78). -/
def assemble : Stmt → Option (List HostOp)
  | .wr t n => writeStmt t n
  | .rd t =>
    match targetOffset t with
    | some off => some [.read off]
    | none => none
  | .nop => commandStmt .nop
  | .init => commandStmt .init
  | .mix => commandStmt .mix
  | .final => commandStmt .final
  | .hash => commandStmt .hash
  | .clrf => commandStmt .clrf
  | .srst => commandStmt .srst
  | .tail n => commandStmt (.tail n)
  | .raw n => writeStmt (.reg .cmd) n
  | .mixImm n => stmtThen (writeStmt (.reg .arg) n) (commandStmt .mix)
  | .tailImm t n => stmtThen (writeStmt (.reg .arg) n) (commandStmt (.tail t))
  | .finalImm n => stmtThen (writeStmt (.reg .arg) n) (commandStmt .final)
  | .seed n => writeStmt (.reg .seed) n
  | .wait => some [.wait]
  | .hashbuf off len size s => hashbufStmt off len size s
  | .hashdef size => hashbufStmt 0 size size 104729

/-- The HOST accesses of a list of statements, in order; none where one is refused. -/
def assembleAll : List Stmt → Option (List HostOp)
  | [] => some []
  | st :: rest => stmtThen (assemble st) (assembleAll rest)

/-- The MIX statements of the first `n` blocks of the bytes from index `off`, in order (R104). -/
def mixStmts (bytes : Nat → Byte) (off : Nat) : Nat → List Stmt
  | 0 => []
  | n + 1 =>
    mixStmts bytes off n ++ [.mixImm (leWord 0 (byteRange bytes (off + 4 * n) 4)).toNat]

/-- The TAIL statement of the bytes from index `a`, when there are any (R123, R173). -/
def tailStmts (bytes : Nat → Byte) (a : Nat) : Nat → List Stmt
  | 0 => []
  | t + 1 => [.tailImm (t + 1) (leWord 0 (byteRange bytes a (t + 1))).toNat]

/-- INIT, one MIX per full block, TAIL for the tail, FINAL with the length (R123, R173). -/
def primitiveStmts (bytes : Nat → Byte) (off len : Nat) : List Stmt :=
  .init :: (mixStmts bytes off (len / 4) ++ (tailStmts bytes (off + 4 * (len / 4)) (len % 4) ++
    [.finalImm len]))

/-- HOST is given the accesses `ops` after those it already has (log 9). -/
def loadHost (ops : List HostOp) (s : State) : State :=
  { s with host := s.host ++ ops }

/-! ### The text of a statement (R77; log 16) -/

/-- A line without its comment: `#` starts one. -/
def stripComment (l : List Char) : List Char := l.takeWhile (· ≠ '#')

/-- Whether a character separates words: a blank, a tab, a carriage return or a comma. -/
def isSeparator (c : Char) : Bool := c = ' ' || c = '\t' || c = '\r' || c = ','

/-- The words of a line; `cur` holds the word being read. -/
def wordsFrom (cur : List Char) : List Char → List (List Char)
  | [] => if cur = [] then [] else [cur]
  | c :: l =>
    if isSeparator c then (if cur = [] then wordsFrom [] l else cur :: wordsFrom [] l)
    else wordsFrom (cur ++ [c]) l

/-- A digit's value in a base up to 16. -/
def digitValue (base : Nat) (c : Char) : Option Nat :=
  let v :=
    if '0' ≤ c ∧ c ≤ '9' then some (c.toNat - '0'.toNat)
    else if 'a' ≤ c ∧ c ≤ 'f' then some (c.toNat - 'a'.toNat + 10)
    else if 'A' ≤ c ∧ c ≤ 'F' then some (c.toNat - 'A'.toNat + 10)
    else none
  match v with
  | some d => if d < base then some d else none
  | none => none

/-- The number the digits after `acc` write in a base. -/
def digitsFrom (base acc : Nat) : List Char → Option Nat
  | [] => some acc
  | c :: l =>
    match digitValue base c with
    | some d => digitsFrom base (acc * base + d) l
    | none => none

/-- An immediate: decimal, or hexadecimal with a `0x` prefix (R77). -/
def parseNumber : List Char → Option Nat
  | [] => none
  | ['0', 'x'] => none
  | '0' :: 'x' :: l => digitsFrom 16 0 l
  | l => digitsFrom 10 0 l

/-- A register's name (R20). -/
def parseReg (l : List Char) : Option Reg :=
  if l = "ID".toList then some .id
  else if l = "STATUS".toList then some .status
  else if l = "CMD".toList then some .cmd
  else if l = "ARG".toList then some .arg
  else if l = "SEED".toList then some .seed
  else if l = "ACC".toList then some .acc
  else if l = "OFFSET".toList then some .offset
  else if l = "LENGTH".toList then some .length
  else if l = "BUFSIZE".toList then some .bufsize
  else if l = "RESULT".toList then some .result
  else if l = "INTEN".toList then some .inten
  else if l = "FINFO".toList then some .finfo
  else none

/-- A register operand: a name, or `@off`. -/
def parseTarget : List Char → Option Target
  | '@' :: l => (parseNumber l).map Target.raw
  | l => (parseReg l).map Target.reg

/-- A statement without operands. -/
def parseBare (m : List Char) : Option Stmt :=
  if m = "nop".toList then some .nop
  else if m = "init".toList then some .init
  else if m = "mix".toList then some .mix
  else if m = "final".toList then some .final
  else if m = "hash".toList then some .hash
  else if m = "clrf".toList then some .clrf
  else if m = "srst".toList then some .srst
  else if m = "wait".toList then some .wait
  else none

/-- A statement with one number. -/
def parseUnary (m : List Char) (n : Nat) : Option Stmt :=
  if m = "tail".toList then some (.tail n)
  else if m = "raw".toList then some (.raw n)
  else if m = "mix".toList then some (.mixImm n)
  else if m = "final".toList then some (.finalImm n)
  else if m = "seed".toList then some (.seed n)
  else if m = "hashdef".toList then some (.hashdef n)
  else none

/-- The words of a line as its statement, if it holds one; `none` where they are no statement. -/
def parseWords : List (List Char) → Option (List Stmt)
  | [] => some []
  | [m] => (parseBare m).map (fun st => [st])
  | [m, x] =>
    if m = "rd".toList then (parseTarget x).map (fun t => [.rd t])
    else ((parseNumber x).bind (parseUnary m)).map (fun st => [st])
  | [m, x, y] =>
    if m = "wr".toList then
      (parseTarget x).bind (fun t => (parseNumber y).map (fun n => [.wr t n]))
    else if m = "tail".toList then
      (parseNumber x).bind (fun t => (parseNumber y).map (fun n => [.tailImm t n]))
    else none
  | [m, a, b, c, d] =>
    if m = "hashbuf".toList then
      (parseNumber a).bind (fun off => (parseNumber b).bind (fun len =>
        (parseNumber c).bind (fun size => (parseNumber d).map (fun s =>
          [.hashbuf off len size s]))))
    else none
  | _ => none

/-- A line of a command-stream program: one statement, or none on an empty line (R77). -/
def parseLine (l : List Char) : Option (List Stmt) :=
  parseWords (wordsFrom [] (stripComment l))

/-- The HOST accesses of a line; `none` where the assembler refuses it (R77). -/
def assembleLine (l : List Char) : Option (List HostOp) :=
  (parseLine l).bind assembleAll

end Sys2Proof.Machine
end

