-- ==== Sys2Proof/Safety.lean ====
section
/-! DEFINITION. What holds in every state a run reaches (R36, R42, R53), and what it means that a step does not stop. -/

namespace Sys2Proof.Machine

/-- The range of a running HASH: what its accept step checked and latched (R36, R53, R141, R142). -/
structure State.Range (s : State) : Prop where
  offset_nonneg : negative s.offset = false
  length_nonneg : negative s.length = false
  in_bounds : s.offset.toNat + s.length.toNat ≤ s.bufsize.toNat
  blocks : s.seq.nb = blockCount s.length
  index : s.seq.idx.toNat ≤ s.seq.nb.toNat

/-- The invariants of R42, with R36's and R53's, and the canonical form of the buffer. -/
structure State.Inv (s : State) : Prop where
  busy_iff_blk : s.status.busy = true ↔ s.seq.phase = .blk
  busy_clear : s.status.busy = true → s.status.fault = false ∧ s.status.done = false
  done_clear : s.status.done = true → s.status.fault = false ∧ s.status.busy = false
  no_fault_clear : s.status.fault = false → s.status.fcause = 0#4 ∧ s.finfo = 0#32
  fault_cause : s.status.fault = true → 1 ≤ s.status.fcause.toNat ∧ s.status.fcause.toNat ≤ 6
  range : s.status.busy = true → s.Range
  mem_wf : Memory.wf s.buf.mem
  silent_wf : indicesWf s.buf.silent

/-- No turn left to come is a hardware reset or a change of the buffer: what R62's stability and an
undisturbed HASH ask of the schedule. -/
def State.Undisturbed (s : State) : Prop :=
  ∀ t ∈ s.turns, t = .host ∨ t = .seq

/-- BUF answers the bytes `bytes` at every index of the range of HASH, and none of those indices has
been changed since the accept (R62, R147). -/
def State.Backed (s : State) (bytes : Nat → Byte) : Prop :=
  s.stale = [] ∧
    ∀ a, s.offset.toNat ≤ a → a < s.offset.toNat + s.length.toNat →
      s.buf.answer a = .ok (bytes a)

/-- BUF answers every read of the range of HASH, with a byte or `err`, now and at every earlier
answer it may still give (R54, R255). -/
def State.Answering (s : State) : Prop :=
  ∀ a, s.offset.toNat ≤ a → a < s.offset.toNat + s.length.toNat →
    ∀ v ∈ s.buf.answer a :: staleAt s a, v ≠ .withheld

/-- `k` steps, up to the first that stops. -/
def runFor : Nat → State → Outcome
  | 0, s => .next s
  | k + 1, s =>
    match step s with
    | .next t => runFor k t
    | .fault r => .fault r
    | .refused r => .refused r

/-! ### What a step leaves as it was -/

/-- The registers no command but SRST writes (R30, R31, R33-R35, R38). -/
def State.KeepsOperands (s t : State) : Prop :=
  t.arg = s.arg ∧ t.seed = s.seed ∧ t.offset = s.offset ∧ t.length = s.length ∧
    t.bufsize = s.bufsize ∧ t.inten = s.inten

/-- FAULT, FCAUSE and FINFO (R28, R39). -/
def State.KeepsFaultRecord (s t : State) : Prop :=
  t.status.fault = s.status.fault ∧ t.status.fcause = s.status.fcause ∧ t.finfo = s.finfo

/-- Every buffer-space index answers as before (R52, R54). -/
def State.KeepsMemory (s t : State) : Prop :=
  ∀ a, t.buf.answer a = s.buf.answer a

/-- What HOST, the schedule and BUF's record hold. -/
def State.KeepsAgents (s t : State) : Prop :=
  t.host = s.host ∧ t.held = s.held ∧ t.readData = s.readData ∧ t.turns = s.turns ∧
    t.bufReads = s.bufReads

/-! ### What the next step is -/

/-- The write at the head of HOST's queue. -/
def headWrite : List HostOp → Option HostWrite
  | .write off w :: _ => some { off := off, data := w }
  | _ => none

/-- The HOST write that takes its step next, if one does (R250; log 1). -/
def State.nextWrite (s : State) : Option HostWrite :=
  match s.turns, s.status.busy, s.held with
  | .reset :: _, _, _ => none
  | .buffer _ _ :: _, _, _ => none
  | _, true, _ => none
  | _, false, some wr => some wr
  | .host :: _, false, none => headWrite s.host
  | .seq :: _, false, none => none
  | [], false, none =>
    match s.seq.phase with
    | .idle => headWrite s.host
    | .blk => none

/-- The next step is SEQ's final step (R144): no other agent, event or due write comes first. -/
structure State.FinalStepNext (s : State) : Prop where
  running : s.seq.phase = .blk
  last : s.seq.idx = s.seq.nb
  turn : s.turns = [] ∨ ∃ ts, s.turns = .seq :: ts
  no_write_due : s.status.busy = true ∨ s.held = none

end Sys2Proof.Machine
end

