-- ==== Sys2Proof/Certificates/Slice0/Obligations.lean ====
section
/-! DEFINITION. The statements for the provers: each a rule of spec/, or what follows from rules, said of the model. -/

open Sys2Proof Sys2Proof.Machine

/-! ### Encoding -/

/-- R73, a few of its words. -/
def Obligations.SampleWordsDecode : Prop :=
  decode 0x00000000#32 = .ok .nop ∧
  decode 0x00000001#32 = .ok .init ∧
  decode 0x00000002#32 = .ok .mix ∧
  decode 0x00000203#32 = .ok (.tail 2) ∧
  decode 0x00000004#32 = .ok .final ∧
  decode 0x00000005#32 = .ok .hash ∧
  decode 0x0000000E#32 = .ok .clrf ∧
  decode 0x0000000F#32 = .ok .srst

/-- R73: the opcode map is exactly the legal words, also in its match and mask form for TAIL. -/
def Obligations.OpcodeMapIsComplete : Prop :=
  (∀ w i, decode w = .ok i ↔
    (w, i) ∈ ([(0x00000000#32, .nop), (0x00000001#32, .init), (0x00000002#32, .mix),
      (0x00000003#32, .tail 0), (0x00000103#32, .tail 1), (0x00000203#32, .tail 2),
      (0x00000303#32, .tail 3), (0x00000004#32, .final), (0x00000005#32, .hash),
      (0x0000000E#32, .clrf), (0x0000000F#32, .srst)] : List (Word × Instr))) ∧
  (∀ w, (∃ n, decode w = .ok (.tail n)) ↔ w &&& 0xFFFFFCFF#32 = 0x00000003#32)

/-- R75, with R74's total decoder: the illegal words, by their fields read as numbers, and that they
fault with ILLEGAL_CMD when accepted. -/
def Obligations.IllegalWordsExactly : Prop :=
  ∀ w : Word,
    ((∃ e, decode w = .error e) ↔
      (w.toNat / 1024 ≠ 0 ∨
       (w.toNat / 256 % 4 ≠ 0 ∧ w.toNat % 256 ≠ 0x03) ∨
       (0x06 ≤ w.toNat % 256 ∧ w.toNat % 256 ≤ 0x0D) ∨
       0x10 ≤ w.toNat % 256)) ∧
    ((∃ e, decode w = .error e) → ∀ s : State, s.status.busy = false → s.status.fault = false →
      ∃ t, hostWrite 0x08#6 w s = .next t ∧ t.status.fault = true ∧ t.status.fcause = 1#4 ∧
        t.finfo = w)

/-- R70, R73, R74: no bit of an encoding is dropped. -/
def Obligations.DecodeOfEncode : Prop :=
  ∀ i : Instr, i.wellFormed = true → decode (encode i) = .ok i

/-- R73, R74: a legal word is the encoding of the command it decodes to. -/
def Obligations.EncodeOfDecode : Prop :=
  ∀ (w : Word) (i : Instr), decode w = .ok i → i.wellFormed = true ∧ encode i = w

/-! ### The pure functions, in the arithmetic of R9 on numbers below 2^32 -/

/-- R100. -/
def Obligations.ScrambleInNumbers : Prop :=
  ∀ k : Word, ∃ a b : Nat,
    a = k.toNat * 0xcc9e2d51 % 2 ^ 32 ∧
    b = (a * 2 ^ 15 % 2 ^ 32) ||| (a / 2 ^ 17) ∧
    (scramble k).toNat = b * 0x1b873593 % 2 ^ 32

/-- R101: steps 4 to 6 of `mix`, and its laws, which the spec marks derived from R100, R101 and R9. -/
def Obligations.MixInNumbersAndBijective : Prop :=
  (∀ k h : Word, ∃ a b : Nat,
    a = h.toNat ^^^ (scramble k).toNat ∧
    b = (a * 2 ^ 13 % 2 ^ 32) ||| (a / 2 ^ 19) ∧
    (mix k h).toNat = (b * 5 % 2 ^ 32 + 0xe6546b64) % 2 ^ 32) ∧
  scramble 0#32 = 0#32 ∧
  Function.Bijective scramble ∧
  (∀ k, Function.Bijective (fun h => mix k h)) ∧
  (∀ h, Function.Bijective (fun k => mix k h)) ∧
  mix 0#32 0#32 = 0xe6546b64#32

/-- R120: the six steps of `fmix`. -/
def Obligations.FmixInNumbers : Prop :=
  ∀ n h : Word, ∃ a b c d e : Nat,
    a = h.toNat ^^^ n.toNat ∧
    b = a ^^^ (a / 2 ^ 16) ∧
    c = b * 0x85ebca6b % 2 ^ 32 ∧
    d = c ^^^ (c / 2 ^ 13) ∧
    e = d * 0xc2b2ae35 % 2 ^ 32 ∧
    (fmix n h).toNat = e ^^^ (e / 2 ^ 16)

/-- R121's laws of `fmix`, which the spec marks derived from R120 and R9. -/
def Obligations.FmixLaws : Prop :=
  (∀ n h, fmix n h = fmix 0#32 (h ^^^ n)) ∧
  Function.Bijective (fun h => fmix 0#32 h) ∧
  fmix 0#32 0#32 = 0#32 ∧
  fmix 0#32 1#32 = 0x514e28b7#32 ∧ fmix 1#32 0#32 = 0x514e28b7#32

/-- R55 and R170: a block and a tail word hold byte j at bits 8j+7..8j, and zero above. -/
def Obligations.BytesAssembledLittleEndian : Prop :=
  (∀ b0 b1 b2 b3 : Byte,
    leWord 0 [b0, b1, b2, b3] =
      b0.setWidth 32 ||| (b1.setWidth 32 <<< 8) ||| (b2.setWidth 32 <<< 16) |||
        (b3.setWidth 32 <<< 24) ∧
    (leWord 0 [b0, b1, b2, b3]).toNat =
      b0.toNat + 2 ^ 8 * b1.toNat + 2 ^ 16 * b2.toNat + 2 ^ 24 * b3.toNat) ∧
  tailword [] = 0#32 ∧
  (∀ b0 : Byte, (tailword [b0]).toNat = b0.toNat) ∧
  (∀ b0 b1 : Byte, (tailword [b0, b1]).toNat = b0.toNat + 2 ^ 8 * b1.toNat) ∧
  (∀ b0 b1 b2 : Byte, (tailword [b0, b1, b2]).toNat =
    b0.toNat + 2 ^ 8 * b1.toNat + 2 ^ 16 * b2.toNat) ∧
  (∀ bs : List Byte, bs.length ≤ 3 → (tailword bs).toNat < 2 ^ 24)

/-- R171: the fold, and its laws, which the spec marks derived; the last clause is V-T6, that `mix` is
not the fold. -/
def Obligations.TailfoldIsScrambleOnly : Prop :=
  (∀ h k, tailfold h k 0 = h) ∧
  (∀ h k t, t ≠ 0 → tailfold h k t = h ^^^ scramble k) ∧
  (∀ h t, tailfold h 0#32 t = h) ∧
  (∀ h k t, tailfold h k t = tailfold 0#32 k t ^^^ h) ∧
  fmix 1#32 (tailfold 0#32 0x61#32 1) ≠ fmix 1#32 (mix 0x61#32 0#32)

/-! ### The commands: what each does, in every state in which a write can take its step (BUSY = 0) -/

/-- R190. -/
def Obligations.NopOnlyCompletes : Prop :=
  (∀ w, decode w = .ok .nop ↔ w = 0x00000000#32) ∧
  ∀ s : State, s.status.busy = false →
    (s.status.fault = false →
      exec .nop s = .next { s with status := { s.status with done := true } }) ∧
    (s.status.fault = true → exec .nop s = .next s)

/-- R102. -/
def Obligations.InitLoadsSeed : Prop :=
  (∀ w, decode w = .ok .init ↔ w = 0x00000001#32) ∧
  ∀ s : State, s.status.busy = false →
    (s.status.fault = false →
      exec .init s = .next { s with acc := s.seed, status := { s.status with done := true } }) ∧
    (s.status.fault = true → exec .init s = .next s)

/-- R103; the last clauses are the rule's corner cases and its worked example. -/
def Obligations.MixMixesArgIntoAcc : Prop :=
  (∀ w, decode w = .ok .mix ↔ w = 0x00000002#32) ∧
  (∀ s : State, s.status.busy = false →
    (s.status.fault = false →
      exec .mix s =
        .next { s with acc := mix s.arg s.acc, status := { s.status with done := true } }) ∧
    (s.status.fault = true → exec .mix s = .next s)) ∧
  (∀ h, mix 0#32 h = rotl h 13 * 5#32 + 0xe6546b64#32) ∧
  mix 0xFFFFFFFF#32 0xFFFFFFFF#32 = 0xb849f5ee#32 ∧
  mix 0x80000000#32 0#32 = 0xde54ebc0#32 ∧
  mix 0x74736574#32 0#32 = 0x7985975b#32

/-- R172 with R72's masks, and the rule's worked example. -/
def Obligations.TailFoldsLowBytesOfArg : Prop :=
  (∀ n, n < 4 → decode (BitVec.ofNat 32 (0x03 + 0x100 * n)) = .ok (.tail n)) ∧
  (∀ s : State, s.status.busy = false → s.status.fault = false →
    exec (.tail 0) s = .next { s with status := { s.status with done := true } } ∧
    exec (.tail 1) s =
      .next { s with acc := s.acc ^^^ scramble (s.arg &&& 0x000000FF#32)
                     status := { s.status with done := true } } ∧
    exec (.tail 2) s =
      .next { s with acc := s.acc ^^^ scramble (s.arg &&& 0x0000FFFF#32)
                     status := { s.status with done := true } } ∧
    exec (.tail 3) s =
      .next { s with acc := s.acc ^^^ scramble (s.arg &&& 0x00FFFFFF#32)
                     status := { s.status with done := true } }) ∧
  (∀ s : State, s.status.busy = false → s.status.fault = true →
    ∀ n, n < 4 → exec (.tail n) s = .next s) ∧
  scramble (0xFFFFFF61#32 &&& 0x000000FF#32) = 0x504ba9d5#32 ∧
  fmix 1#32 0x504ba9d5#32 = 0x3c2569b2#32

/-- The model's choice, resting on no rule (log 11): TAIL with a count above 3, a term that no word
decodes to (R70), is refused by name. -/
def Obligations.IllFormedTailIsRefused : Prop :=
  (∀ (s : State) n, 4 ≤ n → exec (.tail n) s = .refused (.illFormedCount n)) ∧
  ∀ (w : Word) n, decode w = .ok (.tail n) → n < 4

/-- R122; the last clauses are the rule's corner case and worked example. -/
def Obligations.FinalFinalisesAcc : Prop :=
  (∀ w, decode w = .ok .final ↔ w = 0x00000004#32) ∧
  (∀ s : State, s.status.busy = false →
    (s.status.fault = false →
      exec .final s =
        .next { s with acc := fmix s.arg s.acc
                       result := fmix s.arg s.acc
                       status := { s.status with done := true } }) ∧
    (s.status.fault = true → exec .final s = .next s)) ∧
  fmix 0#32 0#32 = 0#32 ∧ fmix 0xFFFFFFFF#32 0xFFFFFFFF#32 = 0#32 ∧
  fmix 4#32 0x7985975b#32 = 0xba6bd213#32

/-- R141: HASH's accept step. The sum recorded in FINFO is exact. The start sets BUSY and leaves
DONE = 0; `stale` is the model's own record of R62 (log 5). -/
def Obligations.HashChecksAndStarts : Prop :=
  (∀ w, decode w = .ok .hash ↔ w = 0x00000005#32) ∧
  ∀ s : State, s.status.busy = false →
    (s.status.fault = true → exec .hash s = .next s) ∧
    (s.status.fault = false → 2 ^ 31 ≤ s.offset.toNat →
      exec .hash s =
        .next { s with status := { busy := false, done := false, fault := true, fcause := 2#4 }
                       finfo := s.offset
                       seq := { s.seq with phase := .idle } }) ∧
    (s.status.fault = false → s.offset.toNat < 2 ^ 31 → 2 ^ 31 ≤ s.length.toNat →
      exec .hash s =
        .next { s with status := { busy := false, done := false, fault := true, fcause := 3#4 }
                       finfo := s.length
                       seq := { s.seq with phase := .idle } }) ∧
    (s.status.fault = false → s.offset.toNat < 2 ^ 31 → s.length.toNat < 2 ^ 31 →
      s.bufsize.toNat < s.offset.toNat + s.length.toNat →
      (s.offset + s.length).toNat = s.offset.toNat + s.length.toNat ∧
      exec .hash s =
        .next { s with status := { busy := false, done := false, fault := true, fcause := 4#4 }
                       finfo := s.offset + s.length
                       seq := { s.seq with phase := .idle } }) ∧
    (s.status.fault = false → s.offset.toNat < 2 ^ 31 → s.length.toNat < 2 ^ 31 →
      s.offset.toNat + s.length.toNat ≤ s.bufsize.toNat →
      exec .hash s =
        .next { s with
          status := { busy := true, done := false, fault := false, fcause := s.status.fcause }
          seq := { phase := .blk
                   h := s.seed
                   idx := 0#32
                   nb := BitVec.ofNat 32 (s.length.toNat / 4) }
          stale := [] })

/-- R191. -/
def Obligations.ClrfClearsFaultRecord : Prop :=
  (∀ w, decode w = .ok .clrf ↔ w = 0x0000000E#32) ∧
  ∀ s : State, s.status.busy = false →
    exec .clrf s =
      .next { s with status := { busy := false, done := true, fault := false, fcause := 0#4 }
                     finfo := 0#32 }

/-- R192: every register at R240's value, the sequencer idle, in every FAULT state; while a HASH runs
SRST is held, as every write is. -/
def Obligations.SrstResetsBlock : Prop :=
  (∀ w, decode w = .ok .srst ↔ w = 0x0000000F#32) ∧
  (∀ s : State, s.status.busy = false → ∃ t, exec .srst s = .next t ∧
    t.status.word = 0x00000000#32 ∧ t.arg = 0#32 ∧ t.seed = 0x00019919#32 ∧
    t.acc = 0x00019919#32 ∧ t.offset = 0#32 ∧ t.length = 0#32 ∧ t.bufsize = 0#32 ∧
    t.result = 0#32 ∧ t.inten.word = 0#32 ∧ t.finfo = 0#32 ∧ t.seq.phase = .idle ∧
    irq t = false) ∧
  (∀ (s : State) (rest : List HostOp) (ts : List Turn),
    s.status.busy = true → s.held = none → s.turns = .host :: ts →
    s.host = .write 0x08#6 0x0000000F#32 :: rest →
    step s = .next { s with host := rest, turns := ts
                            held := some { off := 0x08#6, data := 0x0000000F#32 } })

/-! ### Frames -/

/-- What the register-only commands leave as it was (R102, R103, R122, R172, R190, R191, R52). -/
def Obligations.RegisterCommandFrame : Prop :=
  ∀ (i : Instr) (s t : State), i ≠ .hash → i ≠ .srst → exec i s = .next t →
    State.KeepsOperands s t ∧ State.KeepsMemory s t ∧ State.KeepsAgents s t ∧
    t.seq = s.seq ∧ t.status.busy = s.status.busy ∧
    (i ≠ .clrf → State.KeepsFaultRecord s t) ∧
    (i ≠ .final → t.result = s.result) ∧
    (i = .nop ∨ i = .clrf ∨ i = .tail 0 → t.acc = s.acc)

/-- What HASH's accept step leaves as it was (R141, R151, R52). -/
def Obligations.HashAcceptFrame : Prop :=
  ∀ s t : State, exec .hash s = .next t →
    State.KeepsOperands s t ∧ State.KeepsMemory s t ∧ State.KeepsAgents s t ∧
    t.acc = s.acc ∧ t.result = s.result ∧
    (s.status.fault = false → t.status.fault = false → State.KeepsFaultRecord s t)

/-- What SRST leaves as it was: the buffer space and what HOST holds (R192, R240). -/
def Obligations.SrstFrame : Prop :=
  ∀ s t : State, exec .srst s = .next t →
    t.buf = s.buf ∧ State.KeepsMemory s t ∧ State.KeepsAgents s t

/-! ### Accepting, dropping, faults -/

/-- R211 and R212: the accept step of any word. -/
def Obligations.AcceptDropsOrRuns : Prop :=
  ∀ (w : Word) (s : State), s.status.busy = false →
    (s.status.fault = true → w ≠ 0x0000000E#32 → w ≠ 0x0000000F#32 →
      hostWrite 0x08#6 w s = .next s) ∧
    (s.status.fault = false ∨ w = 0x0000000E#32 ∨ w = 0x0000000F#32 →
      (∀ i, decode w = .ok i →
        hostWrite 0x08#6 w s =
          exec i { s with status := { s.status with done := false } }) ∧
      (∀ e, decode w = .error e →
        hostWrite 0x08#6 w s =
          .next (raiseFault .illegalCmd w { s with status := { s.status with done := false } })))

/-- R213, the state change of the fault action; with FAULT = 1 a refused write changes nothing at all. -/
def Obligations.FaultActionRecordsFirst : Prop :=
  ∀ (c : Cause) (info : Word) (s : State),
    (s.status.fault = false →
      raiseFault c info s =
        { s with
          status := { busy := false, done := false, fault := true, fcause := c.code }
          finfo := info
          seq := { s.seq with phase := .idle } }) ∧
    (s.status.fault = true →
      raiseFault c info s =
        { s with
          status := { busy := false, done := false, fault := true, fcause := s.status.fcause }
          seq := { s.seq with phase := .idle } }) ∧
    (s.Inv → s.status.fault = true → ∀ (off : Offset) (w : Word),
      off ∉ [0x08#6, 0x0C#6, 0x10#6, 0x14#6, 0x18#6, 0x1C#6, 0x20#6, 0x28#6] →
      hostWrite off w s = .next s)

/-- R210: every cause with its code and its info, that no other code is recorded, and that no command
but HASH faults. -/
def Obligations.FaultCausesAndInfo : Prop :=
  (∀ (w : Word) (s : State), s.status.busy = false → s.status.fault = false →
    (∃ e, decode w = .error e) → ∃ t, hostWrite 0x08#6 w s = .next t ∧
      t.status.fault = true ∧ t.status.fcause = 1#4 ∧ t.finfo = w) ∧
  (∀ s : State, s.status.busy = false → s.status.fault = false → ∃ t, exec .hash s = .next t ∧
    (s.offset.getLsbD 31 = true →
      t.status.fault = true ∧ t.status.fcause = 2#4 ∧ t.finfo = s.offset) ∧
    (s.offset.getLsbD 31 = false → s.length.getLsbD 31 = true →
      t.status.fault = true ∧ t.status.fcause = 3#4 ∧ t.finfo = s.length) ∧
    (s.offset.getLsbD 31 = false → s.length.getLsbD 31 = false →
      s.bufsize.toNat < s.offset.toNat + s.length.toNat →
      t.status.fault = true ∧ t.status.fcause = 4#4 ∧
        t.finfo.toNat = s.offset.toNat + s.length.toNat) ∧
    (s.offset.getLsbD 31 = false → s.length.getLsbD 31 = false →
      s.offset.toNat + s.length.toNat ≤ s.bufsize.toNat → t.status.fault = false)) ∧
  (∀ s t : State, s.status.fault = false → seqStep s = .next t → t.status.fault = true →
    t.status.fcause = 5#4 ∧ ∃ a, t.finfo = BitVec.ofNat 32 a ∧ a < 2 ^ 32 ∧
      Answer.err ∈ s.buf.answer a :: staleAt s a) ∧
  (∀ (off : Offset) (w : Word) (s : State), s.status.busy = false → s.status.fault = false →
    off ∉ [0x08#6, 0x0C#6, 0x10#6, 0x14#6, 0x18#6, 0x1C#6, 0x20#6, 0x28#6] →
    ∃ t, hostWrite off w s = .next t ∧
      t.status.fault = true ∧ t.status.fcause = 6#4 ∧ t.finfo.toNat = off.toNat) ∧
  (∀ (i : Instr) (s t : State), i ≠ .hash → s.status.fault = false → exec i s = .next t →
    t.status.fault = false) ∧
  (∀ c : Cause, 1 ≤ c.code.toNat ∧ c.code.toNat ≤ 6)

/-- R215: faults are precise. SEQ's record of reads and the counter of the free choice are the
model's own (log 5, log 10). -/
def Obligations.FaultsArePrecise : Prop :=
  (∀ (w : Word) (s t : State), s.Inv → s.status.busy = false → s.status.fault = false →
    hostWrite 0x08#6 w s = .next t → t.status.fault = true →
    t = { s with status := t.status, finfo := t.finfo }) ∧
  (∀ s t : State, s.status.fault = false → seqStep s = .next t → t.status.fault = true →
    t = { s with status := t.status, finfo := t.finfo, seq := t.seq
                 bufReads := t.bufReads, draws := t.draws })

/-- R28, R212, R217: while FAULT = 1 the record stays until CLRF, SRST or the hardware reset. -/
def Obligations.FaultRecordStaysUntilCleared : Prop :=
  ∀ s t : State, s.Inv → s.status.fault = true → step s = .next t →
    State.KeepsFaultRecord s t ∨
    (t.status.fault = false ∧ t.status.fcause = 0#4 ∧ t.finfo = 0#32 ∧
      ((∃ ts, s.turns = .reset :: ts) ∨
       s.nextWrite = some { off := 0x08#6, data := 0x0000000E#32 } ∨
       s.nextWrite = some { off := 0x08#6, data := 0x0000000F#32 }))

/-! ### Registers, interrupt, hidden state -/

/-- R58: what a HOST read returns, and that it changes nothing but what HOST has read. The second
part is one step in which HOST moves with a read next and no write held, BUSY or not. -/
def Obligations.HostReadsAreIdempotent : Prop :=
  (∀ s : State,
    hostReadValue 0x00#6 s = 0x4D334D01#32 ∧ hostReadValue 0x04#6 s = s.status.word ∧
    hostReadValue 0x08#6 s = 0#32 ∧ hostReadValue 0x0C#6 s = s.arg ∧
    hostReadValue 0x10#6 s = s.seed ∧ hostReadValue 0x14#6 s = s.acc ∧
    hostReadValue 0x18#6 s = s.offset ∧ hostReadValue 0x1C#6 s = s.length ∧
    hostReadValue 0x20#6 s = s.bufsize ∧ hostReadValue 0x24#6 s = s.result ∧
    hostReadValue 0x28#6 s = s.inten.word ∧ hostReadValue 0x2C#6 s = s.finfo) ∧
  (∀ (off : Offset) (s : State), off.toNat % 4 ≠ 0 ∨ 0x30 ≤ off.toNat →
    hostReadValue off s = 0#32) ∧
  (∀ (off : Offset) (rest : List HostOp) (ts : List Turn) (s : State),
    s.host = .read off :: rest → s.held = none → s.turns = .host :: ts →
    step s = .next { s with host := rest, turns := ts
                            readData := s.readData ++ [(off, hostReadValue off s)] })

/-- R25: the layout of STATUS. -/
def Obligations.StatusLayout : Prop :=
  ∀ st : Status,
    st.word.getLsbD 0 = st.busy ∧ st.word.getLsbD 1 = st.done ∧ st.word.getLsbD 2 = st.fault ∧
    st.word.getLsbD 3 = false ∧ st.word.extractLsb' 4 4 = st.fcause ∧
    (∀ j, 8 ≤ j → st.word.getLsbD j = false)

/-- R59: a HOST write that takes its step, at every offset, and that it is held while BUSY = 1. -/
def Obligations.HostWritesRegisters : Prop :=
  ∀ (w : Word) (s : State), s.status.busy = false →
    hostWrite 0x0C#6 w s = .next { s with arg := w } ∧
    hostWrite 0x10#6 w s = .next { s with seed := w } ∧
    hostWrite 0x14#6 w s = .next { s with acc := w } ∧
    hostWrite 0x18#6 w s = .next { s with offset := w } ∧
    hostWrite 0x1C#6 w s = .next { s with length := w } ∧
    hostWrite 0x20#6 w s = .next { s with bufsize := w } ∧
    (∃ t, hostWrite 0x28#6 w s = .next t ∧ t.inten.word = w &&& 3#32 ∧
      t = { s with inten := t.inten }) ∧
    (∀ off : Offset,
      off ∉ [0x08#6, 0x0C#6, 0x10#6, 0x14#6, 0x18#6, 0x1C#6, 0x20#6, 0x28#6] →
      hostWrite off w s = .next (raiseFault .badReg (BitVec.ofNat 32 off.toNat) s)) ∧
    (∀ i, decode w = .ok i → s.status.fault = false →
      hostWrite 0x08#6 w s = exec i { s with status := { s.status with done := false } }) ∧
    (∀ (off : Offset) (rest : List HostOp) (ts : List Turn),
      s.held = none → s.turns = .host :: ts → s.host = .write off w :: rest →
      step { s with status := { s.status with busy := true } } =
        .next { s with status := { s.status with busy := true }
                       host := rest
                       turns := ts
                       held := some { off := off, data := w } })

/-- R220: the level of `irq`, that DONE and FAULT are never both its source, and 0 after reset. -/
def Obligations.InterruptLevel : Prop :=
  (∀ s : State, irq s = true ↔
    (s.status.done = true ∧ s.inten.word.getLsbD 0 = true) ∨
    (s.status.fault = true ∧ s.inten.word.getLsbD 1 = true)) ∧
  (∀ s : State, s.Inv → ¬(s.status.done = true ∧ s.status.fault = true)) ∧
  irq State.reset = false

/-- R36, R234: HOST learns nothing of S.h before a HASH completes. Two states that differ only in S.h
take the same step but for S.h, whatever moves and whatever S.idx is. The one step shut out is SEQ's
final step where it completes the HASH (R144, R145), which writes the result. -/
def Obligations.WorkingAccumulatorIsHidden : Prop :=
  ∀ (s t : State) (x : Word),
    step s = .next t → (s.FinalStepNext → t.status.done = false) →
    ∃ t', step { s with seq := { s.seq with h := x } } = .next t' ∧
      t' = { t with seq := { t.seq with h := t'.seq.h } }

/-! ### The write stall and the step -/

/-- R250: a HOST write while BUSY = 1 is held, HOST then has no step, the write performs at the first
step after BUSY is 0, reads are not held, and the hardware reset discards a held write. That the block
holds one write and HOST's later accesses wait behind it is the model's form (log 2), and that HOST's
queue stays across a hardware reset is the model's too (log 13). -/
def Obligations.WritesStallWhileBusy : Prop :=
  (∀ (off : Offset) (w : Word) (rest : List HostOp) (ts : List Turn) (s : State),
    s.status.busy = true → s.held = none → s.turns = .host :: ts →
    s.host = .write off w :: rest →
    step s = .next { s with host := rest, turns := ts, held := some { off := off, data := w } }) ∧
  (∀ (wr : HostWrite) (ts : List Turn) (s : State),
    s.status.busy = true → s.held = some wr → s.turns = .host :: ts →
    step s = .next { s with turns := ts }) ∧
  (∀ (wr : HostWrite) (s : State),
    s.status.busy = false → s.held = some wr → s.Undisturbed →
    step s = hostWrite wr.off wr.data { s with held := none }) ∧
  (∀ (off : Offset) (rest : List HostOp) (ts : List Turn) (s : State),
    s.status.busy = true → s.held = none → s.turns = .host :: ts → s.host = .read off :: rest →
    ∃ t, step s = .next t ∧ t.host = rest ∧ t.held = none ∧
      t.readData = s.readData ++ [(off, hostReadValue off s)]) ∧
  (∀ (ts : List Turn) (s : State), s.turns = .reset :: ts →
    ∃ t, step s = .next t ∧ t.held = none ∧ t.turns = ts ∧ t.host = s.host)

/-- R142: while a HASH runs and no reset comes, no step changes what it reads its range and seed from,
ARG or INTEN. R32, R37, R252: ACC and RESULT keep their values from before the HASH in every step but
the one that ends it with DONE = 1, and STATUS and FINFO while BUSY stays 1. -/
def Obligations.OperandsFixedWhileBusy : Prop :=
  ∀ s t : State, s.Inv → s.status.busy = true → (∀ ts, s.turns ≠ .reset :: ts) →
    step s = .next t →
    State.KeepsOperands s t ∧
    (t.status.done = false → t.acc = s.acc ∧ t.result = s.result) ∧
    (t.status.busy = true → t.status = s.status ∧ t.finfo = s.finfo)

/-- A step in which HOST's write of a legal word to CMD takes its step is exec of that command, in the
state without that write, and without the turn it took: for a write at the head of HOST's queue
on HOST's turn, with no turn listed, and for a held write. -/
def Obligations.StepRunsDecodedCommand : Prop :=
  ∀ (w : Word) (i : Instr) (s : State), decode w = .ok i → s.status.busy = false →
    (∀ rest ts, s.host = .write 0x08#6 w :: rest → s.held = none → s.turns = .host :: ts →
      step s = exec i { s with host := rest, turns := ts }) ∧
    (∀ rest, s.host = .write 0x08#6 w :: rest → s.held = none → s.turns = [] →
      s.seq.phase = .idle → step s = exec i { s with host := rest }) ∧
    (s.held = some { off := 0x08#6, data := w } → s.Undisturbed →
      step s = exec i { s with held := none })

/-- R42 (with R36 and R53's range): every step keeps the invariant. -/
def Obligations.StepKeepsInvariant : Prop :=
  ∀ s t : State, s.Inv → step s = .next t → t.Inv

/-- The invariant holds at reset (R42, R43). -/
def Obligations.ResetMeetsInvariant : Prop :=
  State.reset.Inv

/-- From a state that meets the invariant no step stops: the model's faults and refusals are out of
reach (R53, R142, R211). -/
def Obligations.StepNeverStops : Prop :=
  ∀ s : State, s.Inv → ∃ t, step s = .next t

/-- R240: the reset state's registers, and the hardware reset in any state, BUSY or not. -/
def Obligations.ResetValues : Prop :=
  ∀ s : State, ∀ ts, s.turns = .reset :: ts → ∃ t, step s = .next t ∧
    (∀ off, hostReadValue off t = hostReadValue off State.reset) ∧
    hostReadValue 0x00#6 State.reset = 0x4D334D01#32 ∧
    State.reset.status.word = 0#32 ∧ State.reset.arg = 0#32 ∧
    State.reset.seed = 0x00019919#32 ∧ State.reset.acc = 0x00019919#32 ∧
    State.reset.offset = 0#32 ∧ State.reset.length = 0#32 ∧ State.reset.bufsize = 0#32 ∧
    State.reset.result = 0#32 ∧ State.reset.inten.word = 0#32 ∧ State.reset.finfo = 0#32 ∧
    State.reset.seq.phase = .idle ∧
    t.seq.phase = .idle ∧ t.status.fault = false ∧ irq t = false ∧
    t.buf = s.buf ∧ t.bufReads = s.bufReads

/-! ### The sequencer -/

/-- R143: the block step, where the four reads answer bytes. No architected register changes. -/
def Obligations.BlockStepMixesOneBlock : Prop :=
  ∀ (s : State) (b0 b1 b2 b3 : Byte) (a : Nat),
    s.seq.phase = .blk → s.seq.idx.toNat < s.seq.nb.toNat → s.stale = [] →
    a = s.offset.toNat + 4 * s.seq.idx.toNat → a + 3 < 2 ^ 32 →
    s.buf.answer a = .ok b0 → s.buf.answer (a + 1) = .ok b1 →
    s.buf.answer (a + 2) = .ok b2 → s.buf.answer (a + 3) = .ok b3 →
    seqStep s =
      .next { s with
        seq := { s.seq with
          h := mix (b0.setWidth 32 ||| (b1.setWidth 32 <<< 8) ||| (b2.setWidth 32 <<< 16) |||
            (b3.setWidth 32 <<< 24)) s.seq.h
          idx := s.seq.idx + 1#32 }
        bufReads := s.bufReads ++ [a, a + 1, a + 2, a + 3] }

/-- R144 with R145: the final step, where the tail reads answer bytes. That S.idx and S.nb are kept
afterwards is the model's choice (log 3). -/
def Obligations.FinalStepCompletes : Prop :=
  ∀ (s : State) (bs : List Byte) (a : Nat),
    s.seq.phase = .blk → s.seq.idx = s.seq.nb → s.stale = [] →
    a = s.offset.toNat + 4 * s.seq.nb.toNat → a + bs.length ≤ 2 ^ 32 →
    bs.length = s.length.toNat % 4 →
    (∀ j b, bs[j]? = some b → s.buf.answer (a + j) = .ok b) →
    ∃ h v, h = tailfold s.seq.h (tailword bs) bs.length ∧ v = fmix s.length h ∧
      seqStep s =
        .next { s with
          acc := v
          result := v
          seq := { s.seq with phase := .idle, h := h }
          status := { s.status with busy := false, done := true }
          bufReads := s.bufReads ++ List.range' a bs.length }

/-- R146: the first read answered `err` ends the HASH, in a block step and in the final step. That S.h,
S.idx and S.nb are kept afterwards, where R146 discards S.h and R36 leaves them unspecified, is the
model's choice (log 3). -/
def Obligations.BufErrorEndsHash : Prop :=
  ∀ (s : State) (a n j : Nat),
    s.seq.phase = .blk → s.status.fault = false → s.stale = [] →
    (s.seq.idx.toNat < s.seq.nb.toNat ∧ a = s.offset.toNat + 4 * s.seq.idx.toNat ∧ n = 4 ∨
     s.seq.idx = s.seq.nb ∧ a = s.offset.toNat + 4 * s.seq.nb.toNat ∧
       n = s.length.toNat % 4) →
    j < n → a + j < 2 ^ 32 →
    (∀ k, k < j → ∃ b, s.buf.answer (a + k) = .ok b) → s.buf.answer (a + j) = .err →
    seqStep s =
      .next { s with
        status := { busy := false, done := false, fault := true, fcause := 5#4 }
        finfo := BitVec.ofNat 32 (a + j)
        seq := { s.seq with phase := .idle }
        bufReads := s.bufReads ++ List.range' a (j + 1) }

/-- R142, R151, R52: what a SEQ step leaves as it was; a block step that does not fault changes no
architected register. -/
def Obligations.SeqStepFrame : Prop :=
  ∀ s t : State, seqStep s = .next t →
    State.KeepsOperands s t ∧ State.KeepsMemory s t ∧
    t.host = s.host ∧ t.held = s.held ∧ t.readData = s.readData ∧ t.turns = s.turns ∧
    (s.seq.phase = .idle → t = s) ∧
    (t.status.done = false → t.acc = s.acc ∧ t.result = s.result) ∧
    (s.seq.idx.toNat < s.seq.nb.toNat → t.status.fault = s.status.fault →
      s.status.fault = false →
      t.status = s.status ∧ t.acc = s.acc ∧ t.result = s.result ∧ t.finfo = s.finfo)

/-- R255, U5: where BUF withholds the answer of any read of a block step or of the final step, and the
reads before it answer bytes, SEQ has no step and BUSY stays 1. The list of withheld indices is the
model's form (log 6). -/
def Obligations.WithheldAnswerHangs : Prop :=
  ∀ (s : State) (a n j : Nat),
    s.seq.phase = .blk → s.stale = [] →
    (s.seq.idx.toNat < s.seq.nb.toNat ∧ a = s.offset.toNat + 4 * s.seq.idx.toNat ∧ n = 4 ∨
     s.seq.idx = s.seq.nb ∧ a = s.offset.toNat + 4 * s.seq.nb.toNat ∧
       n = s.length.toNat % 4) →
    j < n → a + j < 2 ^ 32 →
    (∀ k, k < j → ∃ b, s.buf.answer (a + k) = .ok b) → s.buf.answer (a + j) = .withheld →
    seqStep s = .next s

/-! ### HASH as a whole -/

/-- R147: the value a completed HASH writes, under every schedule of HOST and SEQ turns, with the
buffer stable and every read answered. `s` is the state HASH's accept step leaves; `k` steps keep
BUSY = 1 and the next one ends it. -/
def Obligations.HashComputesMurmur3 : Prop :=
  ∀ (s t : State) (bytes : Nat → Byte) (k : Nat), s.Inv → s.status.busy = true →
    s.seq.idx = 0#32 → s.seq.h = s.seed → s.Backed bytes → s.Undisturbed →
    (∀ j u, j ≤ k → runFor j s = .next u → u.status.busy = true) →
    runFor (k + 1) s = .next t → t.status.busy = false →
    t.acc = murmur3 bytes s.offset.toNat s.length.toNat s.seed ∧
    t.result = murmur3 bytes s.offset.toNat s.length.toNat s.seed ∧
    t.status.done = true ∧ t.status.fault = false

/-- R148: SEQ steps until the end, from the state HASH's accept step leaves, with no other turn
listed: exactly LENGTH / 4 + 1 when every read answers a byte, and exactly LENGTH bytes read; at
most that many when reads may answer `err` (R255). -/
def Obligations.HashEndsInBlockCountSteps : Prop :=
  ∀ s : State, s.Inv → s.status.busy = true → s.seq.idx = 0#32 → s.turns = [] →
    (∀ bytes : Nat → Byte, s.Backed bytes →
      (∀ k u, k ≤ s.length.toNat / 4 → runFor k s = .next u → u.status.busy = true) ∧
      ∃ t, runFor (s.length.toNat / 4 + 1) s = .next t ∧ t.status.busy = false ∧
        t.status.done = true ∧
        t.bufReads = s.bufReads ++ List.range' s.offset.toNat s.length.toNat) ∧
    (s.Answering → ∃ k t, k ≤ s.length.toNat / 4 + 1 ∧ runFor k s = .next t ∧
      t.status.busy = false)

/-- R63: under every schedule, a HASH that completes has read each index of its range once, in
ascending order; one that faults at index `a` has read each index up to `a` once, and none above. -/
def Obligations.ReadsAscendOnce : Prop :=
  ∀ (s t : State) (k : Nat), s.Inv → s.status.busy = true → s.seq.idx = 0#32 →
    (∀ j u, j ≤ k → runFor j s = .next u → u.status.busy = true) →
    runFor (k + 1) s = .next t → t.status.busy = false →
    (t.status.done = true →
      t.bufReads = s.bufReads ++ List.range' s.offset.toNat s.length.toNat) ∧
    (t.status.fault = true → ∃ n, n < s.length.toNat ∧
      t.finfo = BitVec.ofNat 32 (s.offset.toNat + n) ∧
      t.bufReads = s.bufReads ++ List.range' s.offset.toNat (n + 1))

/-- R53: every index a step reads lies in the range of the running HASH, and only SEQ reads. -/
def Obligations.ReadsStayInBounds : Prop :=
  ∀ s t : State, s.Inv → step s = .next t → ∃ l, t.bufReads = s.bufReads ++ l ∧
    (l ≠ [] → s.status.busy = true) ∧
    ∀ a ∈ l, s.offset.toNat ≤ a ∧ a < s.offset.toNat + s.length.toNat ∧
      s.offset.toNat + s.length.toNat ≤ s.bufsize.toNat

/-- R52: no step of HOST, of SEQ or of the hardware reset writes the buffer space. -/
def Obligations.BufferIsNeverWritten : Prop :=
  ∀ s t : State, (∀ a v ts, s.turns ≠ .buffer a v :: ts) → step s = .next t →
    t.buf = s.buf

/-- R62: a byte read answers the present contents, or an answer the index had earlier in this HASH;
where the index was not changed, the present contents. -/
def Obligations.ReadIsOldOrNew : Prop :=
  (∀ (a : Nat) (s : State),
    (memRead a s).1 ∈ s.buf.answer a :: staleAt s a ∧
    (staleAt s a = [] → (memRead a s).1 = s.buf.answer a)) ∧
  (∀ (a : Word) (v : Answer) (s : State) (n : Nat), s.seq.phase = .blk →
    staleAt (changeBuffer a v s) n =
      if n = a.toNat then staleAt s n ++ [s.buf.answer n] else staleAt s n)

/-- R54: what the platform makes an index answer is what it answers (`err` at and above BUF_BYTES,
unless BUF withholds it), every other index answers as before, and BUF_BYTES stays. -/
def Obligations.BufferChangeIsLocal : Prop :=
  ∀ (a : Word) (v : Answer) (s : State), Memory.wf s.buf.mem → indicesWf s.buf.silent →
    (changeBuffer a v s).buf.answer a.toNat =
      (if v ≠ .withheld ∧ s.buf.bytes ≤ a.toNat then .err else v) ∧
    (∀ n, n ≠ a.toNat → (changeBuffer a v s).buf.answer n = s.buf.answer n) ∧
    (changeBuffer a v s).buf.bytes = s.buf.bytes ∧
    Memory.wf (changeBuffer a v s).buf.mem ∧ indicesWf (changeBuffer a v s).buf.silent

/-- R149 and R244: HASH of the empty range takes one SEQ step, reads nothing and gives
`fmix(0, SEED)`, with no turn listed (log 1). -/
def Obligations.ZeroLengthHash : Prop :=
  (∀ s : State, s.status.busy = false → s.status.fault = false → s.length = 0#32 →
    s.offset.toNat < 2 ^ 31 → s.offset.toNat ≤ s.bufsize.toNat → s.turns = [] →
    ∃ u t, exec .hash s = .next u ∧ step u = .next t ∧ t.status.busy = false ∧
      t.status.done = true ∧ t.acc = fmix 0#32 s.seed ∧ t.result = fmix 0#32 s.seed ∧
      t.bufReads = s.bufReads) ∧
  fmix 0#32 0#32 = 0#32 ∧ fmix 0#32 104729#32 = 0xc6757d56#32 ∧
  ∃ t, runFor 2 (State.reset.withFetchWord 32 0x00000005) = .next t ∧
    t.result = 0xc6757d56#32 ∧ t.acc = 0xc6757d56#32

/-- R104: INIT and then one MIX per block leaves in ACC the value of the block loop,
with no write held and no turn listed (log 1). -/
def Obligations.MixSequenceIsBlockLoop : Prop :=
  ∀ (s : State) (bytes : Nat → Byte) (off m : Nat) (ops : List HostOp),
    s.Inv → s.status.busy = false → s.status.fault = false → s.held = none → s.turns = [] →
    assembleAll (.init :: mixStmts bytes off m) = some ops → s.host = ops →
    ∃ t, runFor ops.length s = .next t ∧ t.acc = mixBlocks bytes off s.seed m ∧
      t.result = s.result ∧ t.status.done = true

/-- R123 with R173: INIT, one MIX per full block, TAIL for the tail, FINAL with the length leaves in
RESULT what HASH computes for the same bytes, length and seed, with no write held and no turn listed
(log 1). -/
def Obligations.PrimitiveSequenceIsMurmur3 : Prop :=
  ∀ (s : State) (bytes : Nat → Byte) (off len : Nat),
    s.Inv → s.status.busy = false → s.status.fault = false → s.held = none → s.turns = [] →
    len < 2 ^ 31 →
    ∃ ops, assembleAll (primitiveStmts bytes off len) = some ops ∧
      ∃ t, runFor ops.length (loadHost ops { s with host := [] }) = .next t ∧
        t.result = murmur3 bytes off len s.seed ∧ t.acc = murmur3 bytes off len s.seed ∧
        t.status.done = true ∧ t.status.fault = false

/-! ### Command streams and platforms -/

/-- R78: the expansions of the pseudo-instructions, and `wait` as HOST runs it. -/
def Obligations.PseudoInstructionsExpand : Prop :=
  (∀ n : Nat, n < 2 ^ 32 →
    assemble (.mixImm n) = some [.write 0x0C#6 (BitVec.ofNat 32 n), .write 0x08#6 0x2#32] ∧
    (∀ t, t < 4 → assemble (.tailImm t n) = some [.write 0x0C#6 (BitVec.ofNat 32 n),
      .write 0x08#6 (BitVec.ofNat 32 (0x03 + 0x100 * t))]) ∧
    assemble (.finalImm n) = some [.write 0x0C#6 (BitVec.ofNat 32 n), .write 0x08#6 0x4#32] ∧
    assemble (.seed n) = some [.write 0x10#6 (BitVec.ofNat 32 n)] ∧
    assemble (.hashdef n) = assemble (.hashbuf 0 n n 104729)) ∧
  (∀ off len size sd : Nat,
    off < 2 ^ 32 → len < 2 ^ 32 → size < 2 ^ 32 → sd < 2 ^ 32 →
    assemble (.hashbuf off len size sd) =
      some [.write 0x20#6 (BitVec.ofNat 32 size), .write 0x18#6 (BitVec.ofNat 32 off),
        .write 0x1C#6 (BitVec.ofNat 32 len), .write 0x10#6 (BitVec.ofNat 32 sd),
        .write 0x08#6 0x5#32, .wait]) ∧
  (∀ (s : State) (rest : List HostOp) (ts : List Turn),
    s.host = .wait :: rest → s.held = none → s.turns = .host :: ts →
    step s = .next { s with
      host := if s.status.busy then .wait :: rest else rest
      turns := ts
      readData := s.readData ++ [(0x04#6, s.status.word)] })

/-- R77: an immediate that does not fit in 32 bits is refused, in every statement that takes one; one
that fits is written as it is, to a register or to a raw offset of the window. -/
def Obligations.AssemblerChecksImmediates : Prop :=
  ∀ (r : Reg) (n : Nat),
    (n < 2 ^ 32 →
      assemble (.wr (.reg r) n) = some [.write (regOffset r) (BitVec.ofNat 32 n)] ∧
      (∀ off, off < 64 → assemble (.wr (.raw off) n) =
        some [.write (BitVec.ofNat 6 off) (BitVec.ofNat 32 n)]) ∧
      assemble (.raw n) = some [.write 0x08#6 (BitVec.ofNat 32 n)]) ∧
    (2 ^ 32 ≤ n →
      assemble (.wr (.reg r) n) = none ∧ (∀ off, assemble (.wr (.raw off) n) = none) ∧
      assemble (.raw n) = none ∧ assemble (.hashdef n) = none ∧
      assemble (.mixImm n) = none ∧ assemble (.finalImm n) = none ∧ assemble (.seed n) = none ∧
      (∀ t, assemble (.tailImm t n) = none) ∧
      (∀ a b c, assemble (.hashbuf n a b c) = none ∧ assemble (.hashbuf a n b c) = none ∧
        assemble (.hashbuf a b n c) = none ∧ assemble (.hashbuf a b c n) = none)) ∧
    (∀ t, 4 ≤ t → assemble (.tail t) = none ∧ assemble (.tailImm t n) = none)

/-- R233 and R56: a step of one instance changes no other instance, nor the places of any. -/
def Obligations.InstancesAreIndependent : Prop :=
  (∀ (k : Nat) (ps qs : Platform), stepInstance k ps = some qs →
    qs.length = ps.length ∧
    (∀ j, j ≠ k → qs[j]? = ps[j]?) ∧
    ∃ p t, ps[k]? = some p ∧ step p.block = .next t ∧ qs[k]? = some { p with block := t }) ∧
  (∀ (p : Placed) (off : Offset), windowOffset p (regAddress p off) = some off) ∧
  (∀ (p : Placed) (addr : Nat), (∃ off, windowOffset p addr = some off) ↔
    (p.regBase ≤ addr ∧ addr < p.regBase + 64))
end

