-- ==== Sys2Proof/Laws/State.lean ====
section
/-! SUPPORT. What each named update of the state leaves in each field, one rule per field (true by rfl). -/

namespace Sys2Proof.Machine

/-! ### clearDone -/

@[simp] theorem clearDone_status (s : State) :
    (clearDone s).status = { s.status with done := false } := rfl
@[simp] theorem clearDone_arg (s : State) :
    (clearDone s).arg = s.arg := rfl
@[simp] theorem clearDone_seed (s : State) :
    (clearDone s).seed = s.seed := rfl
@[simp] theorem clearDone_acc (s : State) :
    (clearDone s).acc = s.acc := rfl
@[simp] theorem clearDone_offset (s : State) :
    (clearDone s).offset = s.offset := rfl
@[simp] theorem clearDone_length (s : State) :
    (clearDone s).length = s.length := rfl
@[simp] theorem clearDone_bufsize (s : State) :
    (clearDone s).bufsize = s.bufsize := rfl
@[simp] theorem clearDone_result (s : State) :
    (clearDone s).result = s.result := rfl
@[simp] theorem clearDone_inten (s : State) :
    (clearDone s).inten = s.inten := rfl
@[simp] theorem clearDone_finfo (s : State) :
    (clearDone s).finfo = s.finfo := rfl
@[simp] theorem clearDone_seq (s : State) :
    (clearDone s).seq = s.seq := rfl
@[simp] theorem clearDone_buf (s : State) :
    (clearDone s).buf = s.buf := rfl
@[simp] theorem clearDone_stale (s : State) :
    (clearDone s).stale = s.stale := rfl
@[simp] theorem clearDone_draws (s : State) :
    (clearDone s).draws = s.draws := rfl
@[simp] theorem clearDone_bufReads (s : State) :
    (clearDone s).bufReads = s.bufReads := rfl
@[simp] theorem clearDone_host (s : State) :
    (clearDone s).host = s.host := rfl
@[simp] theorem clearDone_held (s : State) :
    (clearDone s).held = s.held := rfl
@[simp] theorem clearDone_readData (s : State) :
    (clearDone s).readData = s.readData := rfl
@[simp] theorem clearDone_turns (s : State) :
    (clearDone s).turns = s.turns := rfl

/-! ### setDone -/

@[simp] theorem setDone_status (s : State) :
    (setDone s).status = { s.status with done := true } := rfl
@[simp] theorem setDone_arg (s : State) :
    (setDone s).arg = s.arg := rfl
@[simp] theorem setDone_seed (s : State) :
    (setDone s).seed = s.seed := rfl
@[simp] theorem setDone_acc (s : State) :
    (setDone s).acc = s.acc := rfl
@[simp] theorem setDone_offset (s : State) :
    (setDone s).offset = s.offset := rfl
@[simp] theorem setDone_length (s : State) :
    (setDone s).length = s.length := rfl
@[simp] theorem setDone_bufsize (s : State) :
    (setDone s).bufsize = s.bufsize := rfl
@[simp] theorem setDone_result (s : State) :
    (setDone s).result = s.result := rfl
@[simp] theorem setDone_inten (s : State) :
    (setDone s).inten = s.inten := rfl
@[simp] theorem setDone_finfo (s : State) :
    (setDone s).finfo = s.finfo := rfl
@[simp] theorem setDone_seq (s : State) :
    (setDone s).seq = s.seq := rfl
@[simp] theorem setDone_buf (s : State) :
    (setDone s).buf = s.buf := rfl
@[simp] theorem setDone_stale (s : State) :
    (setDone s).stale = s.stale := rfl
@[simp] theorem setDone_draws (s : State) :
    (setDone s).draws = s.draws := rfl
@[simp] theorem setDone_bufReads (s : State) :
    (setDone s).bufReads = s.bufReads := rfl
@[simp] theorem setDone_host (s : State) :
    (setDone s).host = s.host := rfl
@[simp] theorem setDone_held (s : State) :
    (setDone s).held = s.held := rfl
@[simp] theorem setDone_readData (s : State) :
    (setDone s).readData = s.readData := rfl
@[simp] theorem setDone_turns (s : State) :
    (setDone s).turns = s.turns := rfl

/-! ### clearFault -/

@[simp] theorem clearFault_status (s : State) :
    (clearFault s).status = { s.status with fault := false, fcause := 0#4 } := rfl
@[simp] theorem clearFault_arg (s : State) :
    (clearFault s).arg = s.arg := rfl
@[simp] theorem clearFault_seed (s : State) :
    (clearFault s).seed = s.seed := rfl
@[simp] theorem clearFault_acc (s : State) :
    (clearFault s).acc = s.acc := rfl
@[simp] theorem clearFault_offset (s : State) :
    (clearFault s).offset = s.offset := rfl
@[simp] theorem clearFault_length (s : State) :
    (clearFault s).length = s.length := rfl
@[simp] theorem clearFault_bufsize (s : State) :
    (clearFault s).bufsize = s.bufsize := rfl
@[simp] theorem clearFault_result (s : State) :
    (clearFault s).result = s.result := rfl
@[simp] theorem clearFault_inten (s : State) :
    (clearFault s).inten = s.inten := rfl
@[simp] theorem clearFault_finfo (s : State) :
    (clearFault s).finfo = 0#32 := rfl
@[simp] theorem clearFault_seq (s : State) :
    (clearFault s).seq = s.seq := rfl
@[simp] theorem clearFault_buf (s : State) :
    (clearFault s).buf = s.buf := rfl
@[simp] theorem clearFault_stale (s : State) :
    (clearFault s).stale = s.stale := rfl
@[simp] theorem clearFault_draws (s : State) :
    (clearFault s).draws = s.draws := rfl
@[simp] theorem clearFault_bufReads (s : State) :
    (clearFault s).bufReads = s.bufReads := rfl
@[simp] theorem clearFault_host (s : State) :
    (clearFault s).host = s.host := rfl
@[simp] theorem clearFault_held (s : State) :
    (clearFault s).held = s.held := rfl
@[simp] theorem clearFault_readData (s : State) :
    (clearFault s).readData = s.readData := rfl
@[simp] theorem clearFault_turns (s : State) :
    (clearFault s).turns = s.turns := rfl

/-! ### raiseFault -/

@[simp] theorem raiseFault_status (c : Cause) (info : Word) (s : State) :
    (raiseFault c info s).status =
      { busy := false
        done := false
        fault := true
        fcause := if s.status.fault then s.status.fcause else c.code } := rfl
@[simp] theorem raiseFault_arg (c : Cause) (info : Word) (s : State) :
    (raiseFault c info s).arg = s.arg := rfl
@[simp] theorem raiseFault_seed (c : Cause) (info : Word) (s : State) :
    (raiseFault c info s).seed = s.seed := rfl
@[simp] theorem raiseFault_acc (c : Cause) (info : Word) (s : State) :
    (raiseFault c info s).acc = s.acc := rfl
@[simp] theorem raiseFault_offset (c : Cause) (info : Word) (s : State) :
    (raiseFault c info s).offset = s.offset := rfl
@[simp] theorem raiseFault_length (c : Cause) (info : Word) (s : State) :
    (raiseFault c info s).length = s.length := rfl
@[simp] theorem raiseFault_bufsize (c : Cause) (info : Word) (s : State) :
    (raiseFault c info s).bufsize = s.bufsize := rfl
@[simp] theorem raiseFault_result (c : Cause) (info : Word) (s : State) :
    (raiseFault c info s).result = s.result := rfl
@[simp] theorem raiseFault_inten (c : Cause) (info : Word) (s : State) :
    (raiseFault c info s).inten = s.inten := rfl
@[simp] theorem raiseFault_finfo (c : Cause) (info : Word) (s : State) :
    (raiseFault c info s).finfo = if s.status.fault then s.finfo else info := rfl
@[simp] theorem raiseFault_seq (c : Cause) (info : Word) (s : State) :
    (raiseFault c info s).seq = { s.seq with phase := .idle } := rfl
@[simp] theorem raiseFault_buf (c : Cause) (info : Word) (s : State) :
    (raiseFault c info s).buf = s.buf := rfl
@[simp] theorem raiseFault_stale (c : Cause) (info : Word) (s : State) :
    (raiseFault c info s).stale = s.stale := rfl
@[simp] theorem raiseFault_draws (c : Cause) (info : Word) (s : State) :
    (raiseFault c info s).draws = s.draws := rfl
@[simp] theorem raiseFault_bufReads (c : Cause) (info : Word) (s : State) :
    (raiseFault c info s).bufReads = s.bufReads := rfl
@[simp] theorem raiseFault_host (c : Cause) (info : Word) (s : State) :
    (raiseFault c info s).host = s.host := rfl
@[simp] theorem raiseFault_held (c : Cause) (info : Word) (s : State) :
    (raiseFault c info s).held = s.held := rfl
@[simp] theorem raiseFault_readData (c : Cause) (info : Word) (s : State) :
    (raiseFault c info s).readData = s.readData := rfl
@[simp] theorem raiseFault_turns (c : Cause) (info : Word) (s : State) :
    (raiseFault c info s).turns = s.turns := rfl

/-! ### resetState -/

@[simp] theorem resetState_status (s : State) :
    (resetState s).status = State.reset.status := rfl
@[simp] theorem resetState_arg (s : State) :
    (resetState s).arg = State.reset.arg := rfl
@[simp] theorem resetState_seed (s : State) :
    (resetState s).seed = State.reset.seed := rfl
@[simp] theorem resetState_acc (s : State) :
    (resetState s).acc = State.reset.acc := rfl
@[simp] theorem resetState_offset (s : State) :
    (resetState s).offset = State.reset.offset := rfl
@[simp] theorem resetState_length (s : State) :
    (resetState s).length = State.reset.length := rfl
@[simp] theorem resetState_bufsize (s : State) :
    (resetState s).bufsize = State.reset.bufsize := rfl
@[simp] theorem resetState_result (s : State) :
    (resetState s).result = State.reset.result := rfl
@[simp] theorem resetState_inten (s : State) :
    (resetState s).inten = State.reset.inten := rfl
@[simp] theorem resetState_finfo (s : State) :
    (resetState s).finfo = State.reset.finfo := rfl
@[simp] theorem resetState_seq (s : State) :
    (resetState s).seq = State.reset.seq := rfl
@[simp] theorem resetState_buf (s : State) :
    (resetState s).buf = s.buf := rfl
@[simp] theorem resetState_stale (s : State) :
    (resetState s).stale = [] := rfl
@[simp] theorem resetState_draws (s : State) :
    (resetState s).draws = s.draws := rfl
@[simp] theorem resetState_bufReads (s : State) :
    (resetState s).bufReads = s.bufReads := rfl
@[simp] theorem resetState_host (s : State) :
    (resetState s).host = s.host := rfl
@[simp] theorem resetState_held (s : State) :
    (resetState s).held = s.held := rfl
@[simp] theorem resetState_readData (s : State) :
    (resetState s).readData = s.readData := rfl
@[simp] theorem resetState_turns (s : State) :
    (resetState s).turns = s.turns := rfl

/-! ### hardwareReset -/

@[simp] theorem hardwareReset_status (s : State) :
    (hardwareReset s).status = State.reset.status := rfl
@[simp] theorem hardwareReset_arg (s : State) :
    (hardwareReset s).arg = State.reset.arg := rfl
@[simp] theorem hardwareReset_seed (s : State) :
    (hardwareReset s).seed = State.reset.seed := rfl
@[simp] theorem hardwareReset_acc (s : State) :
    (hardwareReset s).acc = State.reset.acc := rfl
@[simp] theorem hardwareReset_offset (s : State) :
    (hardwareReset s).offset = State.reset.offset := rfl
@[simp] theorem hardwareReset_length (s : State) :
    (hardwareReset s).length = State.reset.length := rfl
@[simp] theorem hardwareReset_bufsize (s : State) :
    (hardwareReset s).bufsize = State.reset.bufsize := rfl
@[simp] theorem hardwareReset_result (s : State) :
    (hardwareReset s).result = State.reset.result := rfl
@[simp] theorem hardwareReset_inten (s : State) :
    (hardwareReset s).inten = State.reset.inten := rfl
@[simp] theorem hardwareReset_finfo (s : State) :
    (hardwareReset s).finfo = State.reset.finfo := rfl
@[simp] theorem hardwareReset_seq (s : State) :
    (hardwareReset s).seq = State.reset.seq := rfl
@[simp] theorem hardwareReset_buf (s : State) :
    (hardwareReset s).buf = s.buf := rfl
@[simp] theorem hardwareReset_stale (s : State) :
    (hardwareReset s).stale = [] := rfl
@[simp] theorem hardwareReset_draws (s : State) :
    (hardwareReset s).draws = s.draws := rfl
@[simp] theorem hardwareReset_bufReads (s : State) :
    (hardwareReset s).bufReads = s.bufReads := rfl
@[simp] theorem hardwareReset_host (s : State) :
    (hardwareReset s).host = s.host := rfl
@[simp] theorem hardwareReset_held (s : State) :
    (hardwareReset s).held = none := rfl
@[simp] theorem hardwareReset_readData (s : State) :
    (hardwareReset s).readData = s.readData := rfl
@[simp] theorem hardwareReset_turns (s : State) :
    (hardwareReset s).turns = s.turns := rfl

/-! ### startSequencer -/

@[simp] theorem startSequencer_status (s : State) :
    (startSequencer s).status = { s.status with busy := true } := rfl
@[simp] theorem startSequencer_arg (s : State) :
    (startSequencer s).arg = s.arg := rfl
@[simp] theorem startSequencer_seed (s : State) :
    (startSequencer s).seed = s.seed := rfl
@[simp] theorem startSequencer_acc (s : State) :
    (startSequencer s).acc = s.acc := rfl
@[simp] theorem startSequencer_offset (s : State) :
    (startSequencer s).offset = s.offset := rfl
@[simp] theorem startSequencer_length (s : State) :
    (startSequencer s).length = s.length := rfl
@[simp] theorem startSequencer_bufsize (s : State) :
    (startSequencer s).bufsize = s.bufsize := rfl
@[simp] theorem startSequencer_result (s : State) :
    (startSequencer s).result = s.result := rfl
@[simp] theorem startSequencer_inten (s : State) :
    (startSequencer s).inten = s.inten := rfl
@[simp] theorem startSequencer_finfo (s : State) :
    (startSequencer s).finfo = s.finfo := rfl
@[simp] theorem startSequencer_seq (s : State) :
    (startSequencer s).seq = { phase := .blk, h := s.seed, idx := 0#32, nb := blockCount s.length } := rfl
@[simp] theorem startSequencer_buf (s : State) :
    (startSequencer s).buf = s.buf := rfl
@[simp] theorem startSequencer_stale (s : State) :
    (startSequencer s).stale = [] := rfl
@[simp] theorem startSequencer_draws (s : State) :
    (startSequencer s).draws = s.draws := rfl
@[simp] theorem startSequencer_bufReads (s : State) :
    (startSequencer s).bufReads = s.bufReads := rfl
@[simp] theorem startSequencer_host (s : State) :
    (startSequencer s).host = s.host := rfl
@[simp] theorem startSequencer_held (s : State) :
    (startSequencer s).held = s.held := rfl
@[simp] theorem startSequencer_readData (s : State) :
    (startSequencer s).readData = s.readData := rfl
@[simp] theorem startSequencer_turns (s : State) :
    (startSequencer s).turns = s.turns := rfl

/-! ### complete -/

@[simp] theorem complete_status (v : Word) (s : State) :
    (complete v s).status = { s.status with busy := false, done := true } := rfl
@[simp] theorem complete_arg (v : Word) (s : State) :
    (complete v s).arg = s.arg := rfl
@[simp] theorem complete_seed (v : Word) (s : State) :
    (complete v s).seed = s.seed := rfl
@[simp] theorem complete_acc (v : Word) (s : State) :
    (complete v s).acc = v := rfl
@[simp] theorem complete_offset (v : Word) (s : State) :
    (complete v s).offset = s.offset := rfl
@[simp] theorem complete_length (v : Word) (s : State) :
    (complete v s).length = s.length := rfl
@[simp] theorem complete_bufsize (v : Word) (s : State) :
    (complete v s).bufsize = s.bufsize := rfl
@[simp] theorem complete_result (v : Word) (s : State) :
    (complete v s).result = v := rfl
@[simp] theorem complete_inten (v : Word) (s : State) :
    (complete v s).inten = s.inten := rfl
@[simp] theorem complete_finfo (v : Word) (s : State) :
    (complete v s).finfo = s.finfo := rfl
@[simp] theorem complete_seq (v : Word) (s : State) :
    (complete v s).seq = { s.seq with phase := .idle } := rfl
@[simp] theorem complete_buf (v : Word) (s : State) :
    (complete v s).buf = s.buf := rfl
@[simp] theorem complete_stale (v : Word) (s : State) :
    (complete v s).stale = s.stale := rfl
@[simp] theorem complete_draws (v : Word) (s : State) :
    (complete v s).draws = s.draws := rfl
@[simp] theorem complete_bufReads (v : Word) (s : State) :
    (complete v s).bufReads = s.bufReads := rfl
@[simp] theorem complete_host (v : Word) (s : State) :
    (complete v s).host = s.host := rfl
@[simp] theorem complete_held (v : Word) (s : State) :
    (complete v s).held = s.held := rfl
@[simp] theorem complete_readData (v : Word) (s : State) :
    (complete v s).readData = s.readData := rfl
@[simp] theorem complete_turns (v : Word) (s : State) :
    (complete v s).turns = s.turns := rfl

/-! ### mixBlock -/

@[simp] theorem mixBlock_status (bs : List Byte) (s : State) :
    (mixBlock bs s).status = s.status := rfl
@[simp] theorem mixBlock_arg (bs : List Byte) (s : State) :
    (mixBlock bs s).arg = s.arg := rfl
@[simp] theorem mixBlock_seed (bs : List Byte) (s : State) :
    (mixBlock bs s).seed = s.seed := rfl
@[simp] theorem mixBlock_acc (bs : List Byte) (s : State) :
    (mixBlock bs s).acc = s.acc := rfl
@[simp] theorem mixBlock_offset (bs : List Byte) (s : State) :
    (mixBlock bs s).offset = s.offset := rfl
@[simp] theorem mixBlock_length (bs : List Byte) (s : State) :
    (mixBlock bs s).length = s.length := rfl
@[simp] theorem mixBlock_bufsize (bs : List Byte) (s : State) :
    (mixBlock bs s).bufsize = s.bufsize := rfl
@[simp] theorem mixBlock_result (bs : List Byte) (s : State) :
    (mixBlock bs s).result = s.result := rfl
@[simp] theorem mixBlock_inten (bs : List Byte) (s : State) :
    (mixBlock bs s).inten = s.inten := rfl
@[simp] theorem mixBlock_finfo (bs : List Byte) (s : State) :
    (mixBlock bs s).finfo = s.finfo := rfl
@[simp] theorem mixBlock_seq (bs : List Byte) (s : State) :
    (mixBlock bs s).seq = { s.seq with h := mix (leWord 0 bs) s.seq.h, idx := s.seq.idx + 1#32 } := rfl
@[simp] theorem mixBlock_buf (bs : List Byte) (s : State) :
    (mixBlock bs s).buf = s.buf := rfl
@[simp] theorem mixBlock_stale (bs : List Byte) (s : State) :
    (mixBlock bs s).stale = s.stale := rfl
@[simp] theorem mixBlock_draws (bs : List Byte) (s : State) :
    (mixBlock bs s).draws = s.draws := rfl
@[simp] theorem mixBlock_bufReads (bs : List Byte) (s : State) :
    (mixBlock bs s).bufReads = s.bufReads := rfl
@[simp] theorem mixBlock_host (bs : List Byte) (s : State) :
    (mixBlock bs s).host = s.host := rfl
@[simp] theorem mixBlock_held (bs : List Byte) (s : State) :
    (mixBlock bs s).held = s.held := rfl
@[simp] theorem mixBlock_readData (bs : List Byte) (s : State) :
    (mixBlock bs s).readData = s.readData := rfl
@[simp] theorem mixBlock_turns (bs : List Byte) (s : State) :
    (mixBlock bs s).turns = s.turns := rfl

/-! ### foldTail -/

@[simp] theorem foldTail_status (bs : List Byte) (s : State) :
    (foldTail bs s).status = s.status := rfl
@[simp] theorem foldTail_arg (bs : List Byte) (s : State) :
    (foldTail bs s).arg = s.arg := rfl
@[simp] theorem foldTail_seed (bs : List Byte) (s : State) :
    (foldTail bs s).seed = s.seed := rfl
@[simp] theorem foldTail_acc (bs : List Byte) (s : State) :
    (foldTail bs s).acc = s.acc := rfl
@[simp] theorem foldTail_offset (bs : List Byte) (s : State) :
    (foldTail bs s).offset = s.offset := rfl
@[simp] theorem foldTail_length (bs : List Byte) (s : State) :
    (foldTail bs s).length = s.length := rfl
@[simp] theorem foldTail_bufsize (bs : List Byte) (s : State) :
    (foldTail bs s).bufsize = s.bufsize := rfl
@[simp] theorem foldTail_result (bs : List Byte) (s : State) :
    (foldTail bs s).result = s.result := rfl
@[simp] theorem foldTail_inten (bs : List Byte) (s : State) :
    (foldTail bs s).inten = s.inten := rfl
@[simp] theorem foldTail_finfo (bs : List Byte) (s : State) :
    (foldTail bs s).finfo = s.finfo := rfl
@[simp] theorem foldTail_seq (bs : List Byte) (s : State) :
    (foldTail bs s).seq = { s.seq with h := tailfold s.seq.h (tailword bs) bs.length } := rfl
@[simp] theorem foldTail_buf (bs : List Byte) (s : State) :
    (foldTail bs s).buf = s.buf := rfl
@[simp] theorem foldTail_stale (bs : List Byte) (s : State) :
    (foldTail bs s).stale = s.stale := rfl
@[simp] theorem foldTail_draws (bs : List Byte) (s : State) :
    (foldTail bs s).draws = s.draws := rfl
@[simp] theorem foldTail_bufReads (bs : List Byte) (s : State) :
    (foldTail bs s).bufReads = s.bufReads := rfl
@[simp] theorem foldTail_host (bs : List Byte) (s : State) :
    (foldTail bs s).host = s.host := rfl
@[simp] theorem foldTail_held (bs : List Byte) (s : State) :
    (foldTail bs s).held = s.held := rfl
@[simp] theorem foldTail_readData (bs : List Byte) (s : State) :
    (foldTail bs s).readData = s.readData := rfl
@[simp] theorem foldTail_turns (bs : List Byte) (s : State) :
    (foldTail bs s).turns = s.turns := rfl

/-! ### hostRead -/

@[simp] theorem hostRead_status (off : Offset) (s : State) :
    (hostRead off s).status = s.status := rfl
@[simp] theorem hostRead_arg (off : Offset) (s : State) :
    (hostRead off s).arg = s.arg := rfl
@[simp] theorem hostRead_seed (off : Offset) (s : State) :
    (hostRead off s).seed = s.seed := rfl
@[simp] theorem hostRead_acc (off : Offset) (s : State) :
    (hostRead off s).acc = s.acc := rfl
@[simp] theorem hostRead_offset (off : Offset) (s : State) :
    (hostRead off s).offset = s.offset := rfl
@[simp] theorem hostRead_length (off : Offset) (s : State) :
    (hostRead off s).length = s.length := rfl
@[simp] theorem hostRead_bufsize (off : Offset) (s : State) :
    (hostRead off s).bufsize = s.bufsize := rfl
@[simp] theorem hostRead_result (off : Offset) (s : State) :
    (hostRead off s).result = s.result := rfl
@[simp] theorem hostRead_inten (off : Offset) (s : State) :
    (hostRead off s).inten = s.inten := rfl
@[simp] theorem hostRead_finfo (off : Offset) (s : State) :
    (hostRead off s).finfo = s.finfo := rfl
@[simp] theorem hostRead_seq (off : Offset) (s : State) :
    (hostRead off s).seq = s.seq := rfl
@[simp] theorem hostRead_buf (off : Offset) (s : State) :
    (hostRead off s).buf = s.buf := rfl
@[simp] theorem hostRead_stale (off : Offset) (s : State) :
    (hostRead off s).stale = s.stale := rfl
@[simp] theorem hostRead_draws (off : Offset) (s : State) :
    (hostRead off s).draws = s.draws := rfl
@[simp] theorem hostRead_bufReads (off : Offset) (s : State) :
    (hostRead off s).bufReads = s.bufReads := rfl
@[simp] theorem hostRead_host (off : Offset) (s : State) :
    (hostRead off s).host = s.host := rfl
@[simp] theorem hostRead_held (off : Offset) (s : State) :
    (hostRead off s).held = s.held := rfl
@[simp] theorem hostRead_readData (off : Offset) (s : State) :
    (hostRead off s).readData = s.readData ++ [(off, hostReadValue off s)] := rfl
@[simp] theorem hostRead_turns (off : Offset) (s : State) :
    (hostRead off s).turns = s.turns := rfl

/-! ### changeBuffer -/

@[simp] theorem changeBuffer_status (a : Word) (v : Answer) (s : State) :
    (changeBuffer a v s).status = s.status := rfl
@[simp] theorem changeBuffer_arg (a : Word) (v : Answer) (s : State) :
    (changeBuffer a v s).arg = s.arg := rfl
@[simp] theorem changeBuffer_seed (a : Word) (v : Answer) (s : State) :
    (changeBuffer a v s).seed = s.seed := rfl
@[simp] theorem changeBuffer_acc (a : Word) (v : Answer) (s : State) :
    (changeBuffer a v s).acc = s.acc := rfl
@[simp] theorem changeBuffer_offset (a : Word) (v : Answer) (s : State) :
    (changeBuffer a v s).offset = s.offset := rfl
@[simp] theorem changeBuffer_length (a : Word) (v : Answer) (s : State) :
    (changeBuffer a v s).length = s.length := rfl
@[simp] theorem changeBuffer_bufsize (a : Word) (v : Answer) (s : State) :
    (changeBuffer a v s).bufsize = s.bufsize := rfl
@[simp] theorem changeBuffer_result (a : Word) (v : Answer) (s : State) :
    (changeBuffer a v s).result = s.result := rfl
@[simp] theorem changeBuffer_inten (a : Word) (v : Answer) (s : State) :
    (changeBuffer a v s).inten = s.inten := rfl
@[simp] theorem changeBuffer_finfo (a : Word) (v : Answer) (s : State) :
    (changeBuffer a v s).finfo = s.finfo := rfl
@[simp] theorem changeBuffer_seq (a : Word) (v : Answer) (s : State) :
    (changeBuffer a v s).seq = s.seq := rfl
@[simp] theorem changeBuffer_buf (a : Word) (v : Answer) (s : State) :
    (changeBuffer a v s).buf = s.buf.change a.toNat v := rfl
@[simp] theorem changeBuffer_draws (a : Word) (v : Answer) (s : State) :
    (changeBuffer a v s).draws = s.draws := rfl
@[simp] theorem changeBuffer_bufReads (a : Word) (v : Answer) (s : State) :
    (changeBuffer a v s).bufReads = s.bufReads := rfl
@[simp] theorem changeBuffer_host (a : Word) (v : Answer) (s : State) :
    (changeBuffer a v s).host = s.host := rfl
@[simp] theorem changeBuffer_held (a : Word) (v : Answer) (s : State) :
    (changeBuffer a v s).held = s.held := rfl
@[simp] theorem changeBuffer_readData (a : Word) (v : Answer) (s : State) :
    (changeBuffer a v s).readData = s.readData := rfl
@[simp] theorem changeBuffer_turns (a : Word) (v : Answer) (s : State) :
    (changeBuffer a v s).turns = s.turns := rfl

end Sys2Proof.Machine
end

