-- ==== Sys2Proof/Laws/Arithmetic.lean ====
section
/-! SUPPORT. The arithmetic of the hash: its operators as numbers, and which of them are injective (R9). -/

namespace Sys2Proof.Machine

/-! ### As numbers below 2^32 -/

theorem rotl_toNat (a : Word) (r : Nat) :
    (rotl a r).toNat = (a.toNat * 2 ^ r % 2 ^ 32) ||| (a.toNat / 2 ^ (32 - r)) := by
  rw [rotl, BitVec.toNat_or, BitVec.toNat_shiftLeft, BitVec.toNat_ushiftRight, Nat.shiftLeft_eq,
    Nat.shiftRight_eq_div_pow]

theorem xorShift_toNat (h : Word) (r : Nat) :
    (xorShift h r).toNat = h.toNat ^^^ (h.toNat / 2 ^ r) := by
  rw [xorShift, BitVec.toNat_xor, BitVec.toNat_ushiftRight, Nat.shiftRight_eq_div_pow]

theorem scramble_toNat (k : Word) :
    (scramble k).toNat =
      (rotl (k * 0xcc9e2d51#32) 15).toNat * (0x1b873593#32 : Word).toNat % 2 ^ 32 := by
  rw [scramble, BitVec.toNat_mul]

/-- The number that bytes write little-endian. -/
def leValue : List Byte → Nat
  | [] => 0
  | b :: bs => b.toNat + 256 * leValue bs

theorem leValue_lt (bs : List Byte) : leValue bs < 256 ^ bs.length := by
  induction bs with
  | nil => simp [leValue]
  | cons b bs ih =>
    have := b.isLt
    simp only [leValue, List.length_cons, Nat.pow_succ]
    omega

/-- R55, R170: up to four bytes assembled little-endian, as a number. -/
theorem leWord_toNat (bs : List Byte) (j : Nat) (h : j + bs.length ≤ 4) :
    (leWord j bs).toNat = 2 ^ (8 * j) * leValue bs := by
  induction bs generalizing j with
  | nil => simp [leWord, leValue]
  | cons b bs ih =>
    have hb := b.isLt
    rw [List.length_cons] at h
    have hj : 2 ^ (8 * j + 8) ≤ 2 ^ 32 := Nat.pow_le_pow_right (by omega) (by omega)
    have h8 : 2 ^ (8 * j + 8) = 2 ^ (8 * j) * 256 := by rw [Nat.pow_add]
    have hlt : b.toNat * 2 ^ (8 * j) < 2 ^ (8 * j + 8) := by
      rw [h8, Nat.mul_comm]
      exact Nat.mul_lt_mul_of_pos_left hb (by positivity)
    rw [leWord, BitVec.toNat_or, ih (j + 1) (by omega), zext32, BitVec.toNat_shiftLeft,
      BitVec.toNat_setWidth, Nat.mod_eq_of_lt (show b.toNat < 2 ^ 32 by omega), Nat.shiftLeft_eq,
      Nat.mod_eq_of_lt (Nat.lt_of_lt_of_le hlt hj), Nat.lor_comm,
      show 8 * (j + 1) = 8 * j + 8 from by omega, ← Nat.two_pow_add_eq_or_of_lt hlt, h8, leValue]
    ring

/-! ### Injective operators -/

theorem injective_mul {c d : Word} (h : c * d = 1#32) : Function.Injective (fun x : Word => x * c) := by
  intro x y hxy
  have hm := congrArg (· * d) hxy
  simpa only [BitVec.mul_assoc, h, BitVec.mul_one] using hm

theorem rotl_eq_rotateLeft (a : Word) {r : Nat} (h : r < 32) : rotl a r = a.rotateLeft r := by
  rw [BitVec.rotateLeft_def, Nat.mod_eq_of_lt h]
  rfl

theorem injective_rotl {r : Nat} (h : r < 32) : Function.Injective (fun x : Word => rotl x r) := by
  intro x y hxy
  simp only [rotl_eq_rotateLeft _ h] at hxy
  apply BitVec.eq_of_getLsbD_eq
  intro i hi
  have hbit : ∀ k, (x.rotateLeft r).getLsbD k = (y.rotateLeft r).getLsbD k := fun k => by rw [hxy]
  simp only [BitVec.getLsbD_rotateLeft, Nat.mod_eq_of_lt h] at hbit
  by_cases hr : i < 32 - r
  · have hk := hbit (i + r)
    simpa [show ¬ i + r < r from by omega, show i + r < 32 from by omega] using hk
  · have hk := hbit (i - (32 - r))
    simpa [show i - (32 - r) < r from by omega,
      show 32 - r + (i - (32 - r)) = i from by omega] using hk

theorem injective_xorShift {r : Nat} (h : 0 < r) :
    Function.Injective (fun x : Word => xorShift x r) := by
  intro x y hxy
  have hb : ∀ i, (x.getLsbD i ^^ x.getLsbD (r + i)) = (y.getLsbD i ^^ y.getLsbD (r + i)) := by
    intro i
    have hk := congrArg (fun z : Word => z.getLsbD i) hxy
    simpa only [xorShift, BitVec.getLsbD_xor, BitVec.getLsbD_ushiftRight] using hk
  have key : ∀ n i, 32 ≤ i + n → x.getLsbD i = y.getLsbD i := by
    intro n
    induction n with
    | zero =>
      intro i hi
      rw [BitVec.getLsbD_of_ge _ _ (by omega), BitVec.getLsbD_of_ge _ _ (by omega)]
    | succ n ih =>
      intro i hi
      have hk := hb i
      rw [ih (r + i) (by omega)] at hk
      simpa using hk
  exact BitVec.eq_of_getLsbD_eq fun i _ => key 32 i (by omega)

/-! ### Bytes of a word (R55, R72, R170) -/

theorem byteRange_length (bytes : Nat → Byte) (a n : Nat) : (byteRange bytes a n).length = n := by
  induction n generalizing a with
  | zero => rfl
  | succ n ih => rw [byteRange, List.length_cons, ih]

/-- The low bytes of a word assembled from up to three bytes are those bytes. -/
theorem argBytes_leWord (bs : List Byte) (h : bs.length ≤ 3) :
    argBytes bs.length (leWord 0 bs) = bs := by
  match bs, h with
  | [], _ => rfl
  | [a], _ =>
    simp only [argBytes, byteOf, leWord, zext32, List.length, List.range, List.range.loop, List.map]
    congr 1
    apply BitVec.eq_of_getLsbD_eq
    intro i hi
    interval_cases i <;> simp
  | [a, b], _ =>
    simp only [argBytes, byteOf, leWord, zext32, List.length, List.range, List.range.loop, List.map]
    congr 2
    all_goals
      apply BitVec.eq_of_getLsbD_eq
      intro i hi
      interval_cases i <;> simp
  | [a, b, c], _ =>
    simp only [argBytes, byteOf, leWord, zext32, List.length, List.range, List.range.loop, List.map]
    congr 3
    all_goals
      apply BitVec.eq_of_getLsbD_eq
      intro i hi
      interval_cases i <;> simp

end Sys2Proof.Machine
end

