-- ==== Sys2Proof/Laws/Memory.lean ====
section
/-! SUPPORT. The laws of the buffer memory: read after write, every other index alone, the canonical form kept. -/

namespace Sys2Proof.Machine

/-! ### Reading after an update -/

theorem Memory.read_write (m : Memory) (a n : Nat) (b : Byte) (h : m.Pairwise (fun x y => x.1 < y.1)) :
    Memory.read (Memory.write m a b) n = if n = a then some b else Memory.read m n := by
  induction m with
  | nil => simp [Memory.write, Memory.read]
  | cons c m ih =>
    obtain ⟨k, x⟩ := c
    have hm := ih (List.pairwise_cons.mp h).2
    simp only [Memory.write]
    split
    · simp [Memory.read]
    · split
      · subst_vars
        simp only [Memory.read]
        split <;> simp_all
      · simp only [Memory.read, hm]
        split
        · rw [if_neg (by omega)]
        · rfl

theorem Memory.read_of_lt (m : Memory) (a : Nat) (h : ∀ c ∈ m, a < c.1) :
    Memory.read m a = none := by
  induction m with
  | nil => rfl
  | cons c m ih =>
    have hc : a ≠ c.1 := Nat.ne_of_lt (h c (by simp))
    simp [Memory.read, hc, ih (fun d hd => h d (by simp [hd]))]

theorem Memory.read_erase (m : Memory) (a n : Nat) (h : m.Pairwise (fun x y => x.1 < y.1)) :
    Memory.read (Memory.erase m a) n = if n = a then none else Memory.read m n := by
  induction m with
  | nil => simp [Memory.erase, Memory.read]
  | cons c m ih =>
    obtain ⟨k, x⟩ := c
    have hp := List.pairwise_cons.mp h
    have hm := ih hp.2
    simp only [Memory.erase]
    split
    · subst_vars
      by_cases hn : n = k
      · subst hn
        simp [Memory.read_of_lt m n hp.1]
      · simp [Memory.read, hn]
    · by_cases hn : n = k
      · have : n ≠ a := by omega
        simp_all [Memory.read]
      · simp [Memory.read, hn, hm]

/-! ### The canonical form is kept -/

theorem reset_mem_wf : Memory.wf State.reset.buf.mem ∧ indicesWf State.reset.buf.silent := by
  decide


theorem Memory.mem_write {m : Memory} {a : Nat} {b : Byte} {c : Host.Cell}
    (h : c ∈ Memory.write m a b) : c = (a, b) ∨ c ∈ m := by
  induction m with
  | nil => simpa [Memory.write] using h
  | cons d m ih =>
    simp only [Memory.write] at h
    split at h
    · simpa using h
    · split at h
      · simp only [List.mem_cons] at h ⊢; tauto
      · simp only [List.mem_cons] at h ⊢
        rcases h with h | h
        · exact .inr (.inl h)
        · rcases ih h with h | h
          · exact .inl h
          · exact .inr (.inr h)

theorem Memory.mem_erase {m : Memory} {a : Nat} {c : Host.Cell}
    (h : c ∈ Memory.erase m a) : c ∈ m := by
  induction m with
  | nil => simp [Memory.erase] at h
  | cons d m ih =>
    simp only [Memory.erase] at h
    split at h
    · simp [h]
    · simp only [List.mem_cons] at h ⊢
      exact h.imp id ih

theorem Memory.wf_write {m : Memory} {a : Nat} {b : Byte} (h : Memory.wf m)
    (ha : a < Config.bufferSpace) : Memory.wf (Memory.write m a b) := by
  refine ⟨?_, fun c hc => (Memory.mem_write hc).elim (fun e => by simpa [e] using ha) (h.2 c)⟩
  obtain ⟨hp, -⟩ := h
  induction m with
  | nil => simp [Memory.write]
  | cons d m ih =>
    obtain ⟨hd, hm⟩ := List.pairwise_cons.mp hp
    simp only [Memory.write]
    split
    · refine List.pairwise_cons.mpr ⟨fun c hc => ?_, hp⟩
      rcases List.mem_cons.mp hc with rfl | hc
      · assumption
      · exact Nat.lt_trans ‹_› (hd c hc)
    · split
      · rename_i hk
        exact List.pairwise_cons.mpr ⟨fun c hc => by simpa [hk] using hd c hc, hm⟩
      · refine List.pairwise_cons.mpr ⟨fun c hc => ?_, ih hm⟩
        rcases Memory.mem_write hc with rfl | hc
        · change d.1 < a; omega
        · exact hd c hc

theorem Memory.wf_erase {m : Memory} {a : Nat} (h : Memory.wf m) :
    Memory.wf (Memory.erase m a) := by
  refine ⟨?_, fun c hc => h.2 c (Memory.mem_erase hc)⟩
  obtain ⟨hp, -⟩ := h
  induction m with
  | nil => simp [Memory.erase]
  | cons d m ih =>
    obtain ⟨hd, hm⟩ := List.pairwise_cons.mp hp
    simp only [Memory.erase]
    split
    · exact hm
    · exact List.pairwise_cons.mpr ⟨fun c hc => hd c (Memory.mem_erase hc), ih hm⟩

theorem mem_insertIndex {l : List Nat} {a n : Nat} : n ∈ insertIndex l a ↔ n = a ∨ n ∈ l := by
  induction l with
  | nil => simp [insertIndex]
  | cons k l ih =>
    simp only [insertIndex]
    split
    · simp
    · split
      · simp_all
      · simp only [List.mem_cons, ih]; tauto

theorem indicesWf_insertIndex {l : List Nat} {a : Nat} (h : indicesWf l)
    (ha : a < Config.bufferSpace) : indicesWf (insertIndex l a) := by
  refine ⟨?_, fun k hk => (mem_insertIndex.mp hk).elim (fun e => e ▸ ha) (h.2 k)⟩
  obtain ⟨hp, -⟩ := h
  induction l with
  | nil => simp [insertIndex]
  | cons d m ih =>
    obtain ⟨hd, hm⟩ := List.pairwise_cons.mp hp
    simp only [insertIndex]
    split
    · refine List.pairwise_cons.mpr ⟨fun c hc => ?_, hp⟩
      rcases List.mem_cons.mp hc with rfl | hc
      · assumption
      · exact Nat.lt_trans ‹_› (hd c hc)
    · split
      · exact hp
      · refine List.pairwise_cons.mpr ⟨fun c hc => ?_, ih hm⟩
        rcases mem_insertIndex.mp hc with rfl | hc
        · omega
        · exact hd c hc

theorem indicesWf_filter {l : List Nat} {p : Nat → Bool} (h : indicesWf l) :
    indicesWf (l.filter p) :=
  ⟨h.1.filter p, fun k hk => h.2 k (List.mem_filter.mp hk).1⟩

/-- A change by the platform keeps the canonical forms and BUF_BYTES. -/
theorem Buf.change_wf {b : Buf} {a : Nat} {v : Answer} (hm : Memory.wf b.mem)
    (hs : indicesWf b.silent) (ha : a < Config.bufferSpace) :
    Memory.wf (b.change a v).mem ∧ indicesWf (b.change a v).silent ∧
      (b.change a v).bytes = b.bytes := by
  cases v with
  | ok x => exact ⟨Memory.wf_write hm ha, indicesWf_filter hs, rfl⟩
  | err => exact ⟨Memory.wf_erase hm, indicesWf_filter hs, rfl⟩
  | withheld => exact ⟨hm, indicesWf_insertIndex hs ha, rfl⟩

end Sys2Proof.Machine
end

