-- ==== Sys2Proof/Laws/PerInstr.lean ====
section
/-! SUPPORT. What is said of every command as syntax, one lemma per constructor: the word of a well-formed command has RSV = 0 and carries N in no command but TAIL (R70, R73). -/

namespace Sys2Proof

/-- N of a command's word: TAIL's count, 0 in every other (R70, R73). -/
def Instr.wordCount : Instr → Nat
  | .nop => 0
  | .init => 0
  | .mix => 0
  | .tail n => n
  | .final => 0
  | .hash => 0
  | .clrf => 0
  | .srst => 0

/-- R70: the reserved bits of an encoded command are clear, and N is the count it carries. -/
def Laws.ReservedClear.Statement (i : Instr) : Prop :=
  i.wellFormed = true → reservedField (encode i) = 0#22 ∧ (countField (encode i)).toNat = i.wordCount

theorem Laws.ReservedClear.nop : Laws.ReservedClear.Statement .nop := fun _ => by decide

theorem Laws.ReservedClear.init : Laws.ReservedClear.Statement .init := fun _ => by decide

theorem Laws.ReservedClear.mix : Laws.ReservedClear.Statement .mix := fun _ => by decide

theorem Laws.ReservedClear.tail (n : Nat) : Laws.ReservedClear.Statement (.tail n) := by
  intro h
  have hn : n < 4 := by simpa [Instr.wellFormed] using h
  have key : ∀ m, m < 4 →
      reservedField (encode (.tail m)) = 0#22 ∧ (countField (encode (.tail m))).toNat = m := by
    decide
  exact key n hn

theorem Laws.ReservedClear.final : Laws.ReservedClear.Statement .final := fun _ => by decide

theorem Laws.ReservedClear.hash : Laws.ReservedClear.Statement .hash := fun _ => by decide

theorem Laws.ReservedClear.clrf : Laws.ReservedClear.Statement .clrf := fun _ => by decide

theorem Laws.ReservedClear.srst : Laws.ReservedClear.Statement .srst := fun _ => by decide

end Sys2Proof
end

