-- ==== Sys2Proof/Laws/Reads.lean ====
section
/-! SUPPORT. What SEQ's byte reads can do: the answers they may give, and that they change BUF's record and the counter of the free choice alone. -/

namespace Sys2Proof.Machine

/-- A read changes BUF's record of requests and the counter of the free choice, nothing else. -/
theorem memRead_state (a : Nat) (s : State) :
    ∃ d, (memRead a s).2 = { s with bufReads := s.bufReads ++ [a], draws := d } := by
  unfold memRead
  split <;> exact ⟨_, rfl⟩

theorem pickAnswer_mem (n : Nat) (now : Answer) (old : List Answer) :
    pickAnswer n now old ∈ now :: old := by
  have h : Config.freePick n % (old.length + 1) < (now :: old).length :=
    Nat.mod_lt _ (Nat.succ_pos _)
  rw [pickAnswer, List.getD_eq_getElem?_getD, List.getElem?_eq_getElem h]
  exact List.getElem_mem h

/-- R62: a read answers the present contents or an earlier answer of the index. -/
theorem memRead_answer (a : Nat) (s : State) :
    (memRead a s).1 ∈ s.buf.answer a :: staleAt s a := by
  unfold memRead
  split
  · exact List.mem_cons_self
  · exact pickAnswer_mem _ _ _

/-- A read of an index that was not changed answers its present contents. -/
theorem memRead_fresh {a : Nat} {s : State} (h : staleAt s a = []) :
    memRead a s = (s.buf.answer a, { s with bufReads := s.bufReads ++ [a] }) := by
  rw [memRead, if_pos h]
  rfl

/-- What `n` reads from index `a` of state `s` came to: everything the result can be. -/
def FetchFrom (n a : Nat) (s : State) : Fetch → Prop
  | .bytes bs t =>
    bs.length = n ∧ (n = 0 ∨ a + n ≤ Config.bufferSpace) ∧
      ∃ d, t = { s with bufReads := s.bufReads ++ List.range' a n, draws := d }
  | .error a' t =>
    ∃ j, j < n ∧ a' = a + j ∧ a' < Config.bufferSpace ∧
      Answer.err ∈ s.buf.answer a' :: staleAt s a' ∧
      ∃ d, t = { s with bufReads := s.bufReads ++ List.range' a (j + 1), draws := d }
  | .hang => ∃ j, j < n ∧ Answer.withheld ∈ s.buf.answer (a + j) :: staleAt s (a + j)
  | .outside a' => a ≤ a' ∧ a' < a + n ∧ Config.bufferSpace ≤ a'

/-- The spec of `readBytes`, over every result. -/
theorem readBytes_spec (n a : Nat) (s : State) : FetchFrom n a s (readBytes n a s) := by
  induction n generalizing a s with
  | zero => exact ⟨rfl, .inl rfl, s.draws, by simp⟩
  | succ n ih =>
    unfold readBytes
    split
    · simp only [FetchFrom]; omega
    · rename_i ha
      obtain ⟨d, hs⟩ := memRead_state a s
      have hm := memRead_answer a s
      rcases hr : memRead a s with ⟨v, t⟩
      rw [hr] at hs hm
      simp only at hs hm
      cases v with
      | err =>
        exact ⟨0, by omega, rfl, by omega, hm, d, by simpa using hs⟩
      | withheld => exact ⟨0, by omega, hm⟩
      | ok b =>
        have hb : t.buf = s.buf := by rw [hs]
        have hst : ∀ k, staleAt t k = staleAt s k := fun k => by unfold staleAt; rw [hs]
        have hi := ih (a + 1) t
        simp only
        cases hf : readBytes n (a + 1) t with
        | bytes bs u =>
          rw [hf] at hi
          obtain ⟨hl, hle, e, hu⟩ := hi
          exact ⟨by simp [hl], by omega, e, by rw [hu, hs]; simp [List.range'_succ]⟩
        | error a' u =>
          rw [hf] at hi
          obtain ⟨j, hj, rfl, hlt, he, e, hu⟩ := hi
          rw [hb, hst] at he
          exact ⟨j + 1, by omega, by omega, hlt, he, e, by rw [hu, hs]; simp [List.range'_succ]⟩
        | hang =>
          rw [hf] at hi
          obtain ⟨j, hj, hw⟩ := hi
          refine ⟨j + 1, by omega, ?_⟩
          rw [hb, hst] at hw
          rwa [show a + (j + 1) = a + 1 + j from by omega]
        | outside a' =>
          rw [hf] at hi
          simp only [FetchFrom] at hi ⊢
          omega

/-- `n` reads of unchanged indices that all answer bytes. -/
theorem readBytes_ok (bytes : Nat → Byte) (n a : Nat) (s : State) (hst : s.stale = [])
    (hle : a + n ≤ Config.bufferSpace)
    (hok : ∀ k, a ≤ k → k < a + n → s.buf.answer k = .ok (bytes k)) :
    readBytes n a s =
      .bytes (byteRange bytes a n) { s with bufReads := s.bufReads ++ List.range' a n } := by
  induction n generalizing a s with
  | zero => simp [readBytes, byteRange]
  | succ n ih =>
    have ha : ¬ Config.bufferSpace ≤ a := by omega
    have hfresh : staleAt s a = [] := by simp [staleAt, hst]
    unfold readBytes
    rw [if_neg ha, memRead_fresh hfresh, hok a (by omega) (by omega)]
    simp only
    rw [ih (a + 1) { s with bufReads := s.bufReads ++ [a] } hst (by omega)
      (fun k h1 h2 => hok k (by omega) (by omega))]
    simp [byteRange, List.range'_succ]

/-- Reads of unchanged indices, the first failing one at distance `j`. -/
theorem readBytes_err (n a j : Nat) (s : State) (hst : s.stale = []) (hj : j < n)
    (hle : a + j < Config.bufferSpace)
    (hok : ∀ k, k < j → ∃ b, s.buf.answer (a + k) = .ok b) (he : s.buf.answer (a + j) = .err) :
    readBytes n a s =
      .error (a + j) { s with bufReads := s.bufReads ++ List.range' a (j + 1) } := by
  induction j generalizing n a s with
  | zero =>
    obtain ⟨n, rfl⟩ : ∃ m, n = m + 1 := ⟨n - 1, by omega⟩
    have hfresh : staleAt s a = [] := by simp [staleAt, hst]
    unfold readBytes
    rw [if_neg (by omega), memRead_fresh hfresh, show s.buf.answer a = .err from he]
    simp
  | succ j ih =>
    obtain ⟨n, rfl⟩ : ∃ m, n = m + 1 := ⟨n - 1, by omega⟩
    have hfresh : staleAt s a = [] := by simp [staleAt, hst]
    obtain ⟨b, hb⟩ := hok 0 (by omega)
    unfold readBytes
    rw [if_neg (by omega), memRead_fresh hfresh, show s.buf.answer a = .ok b from hb]
    simp only
    rw [ih n (a + 1) { s with bufReads := s.bufReads ++ [a] } hst (by omega) (by omega)
      (fun k hk => by
        obtain ⟨c, hc⟩ := hok (k + 1) (by omega)
        exact ⟨c, by rwa [show a + 1 + k = a + (k + 1) from by omega]⟩)
      (by rwa [show a + 1 + j = a + (j + 1) from by omega])]
    simp [List.range'_succ, show a + 1 + j = a + (j + 1) from by omega]

/-- Reads of unchanged indices, the first unanswered one at distance `j`. -/
theorem readBytes_hang (n a j : Nat) (s : State) (hst : s.stale = []) (hj : j < n)
    (hle : a + j < Config.bufferSpace)
    (hok : ∀ k, k < j → ∃ b, s.buf.answer (a + k) = .ok b)
    (hw : s.buf.answer (a + j) = .withheld) : readBytes n a s = .hang := by
  induction j generalizing n a s with
  | zero =>
    obtain ⟨n, rfl⟩ : ∃ m, n = m + 1 := ⟨n - 1, by omega⟩
    have hfresh : staleAt s a = [] := by simp [staleAt, hst]
    unfold readBytes
    rw [if_neg (by omega), memRead_fresh hfresh, show s.buf.answer a = .withheld from hw]
  | succ j ih =>
    obtain ⟨n, rfl⟩ : ∃ m, n = m + 1 := ⟨n - 1, by omega⟩
    have hfresh : staleAt s a = [] := by simp [staleAt, hst]
    obtain ⟨b, hb⟩ := hok 0 (by omega)
    unfold readBytes
    rw [if_neg (by omega), memRead_fresh hfresh, show s.buf.answer a = .ok b from hb]
    simp only
    rw [ih n (a + 1) { s with bufReads := s.bufReads ++ [a] } hst (by omega) (by omega)
      (fun k hk => by
        obtain ⟨c, hc⟩ := hok (k + 1) (by omega)
        exact ⟨c, by rwa [show a + 1 + k = a + (k + 1) from by omega]⟩)
      (by rwa [show a + 1 + j = a + (j + 1) from by omega])]

end Sys2Proof.Machine
end

