-- ==== Sys2Proof/Laws/Steps.lean ====
section
/-! SUPPORT. What a step can do, said once: the accept step, SEQ's step, a HOST write, and the step of the machine. -/

namespace Sys2Proof.Machine

/-! ### The accept step -/

theorem accept_eq (i : Instr) (body : State → State) (s : State) :
    accept i body s = .next (if accepts s i then body (clearDone s) else s) := by
  unfold accept
  split <;> rfl

/-- The state a legal command's accept step leaves, as one function of the state. -/
def acceptedState (i : Instr) (s : State) : State :=
  if accepts s i then
    match i with
    | .nop => setDone (clearDone s)
    | .init => setDone { clearDone s with acc := s.seed }
    | .mix => setDone { clearDone s with acc := mix s.arg s.acc }
    | .tail n => setDone { clearDone s with acc := tailfold s.acc (tailword (argBytes n s.arg)) n }
    | .final => setDone { clearDone s with acc := fmix s.arg s.acc, result := fmix s.arg s.acc }
    | .hash => hashBody (clearDone s)
    | .clrf => setDone (clearFault (clearDone s))
    | .srst => resetState (clearDone s)
  else s

/-- Every well-formed command's accept step answers a next state. -/
theorem exec_eq (i : Instr) (s : State) (h : i.wellFormed = true) :
    exec i s = .next (acceptedState i s) := by
  cases i with
  | tail n =>
    have hn : n < 4 := by simpa [Instr.wellFormed] using h
    show execTail n s = _
    rw [execTail, if_pos hn, accept_eq]
    rfl
  | nop =>
    show execNop s = _
    rw [execNop, accept_eq]
    rfl
  | init =>
    show execInit s = _
    rw [execInit, accept_eq]
    rfl
  | mix =>
    show execMix s = _
    rw [execMix, accept_eq]
    rfl
  | final =>
    show execFinal s = _
    rw [execFinal, accept_eq]
    rfl
  | hash =>
    show execHash s = _
    rw [execHash, accept_eq]
    rfl
  | clrf =>
    show execClrf s = _
    rw [execClrf, accept_eq]
    rfl
  | srst =>
    show execSrst s = _
    rw [execSrst, accept_eq]
    rfl

/-- A command whose accept step answers a next state is well formed. -/
theorem wellFormed_of_exec {i : Instr} {s t : State} (h : exec i s = .next t) :
    i.wellFormed = true := by
  cases i with
  | tail n =>
    by_cases hn : n < 4
    · simpa [Instr.wellFormed] using hn
    · change execTail n s = _ at h
      rw [execTail, if_neg hn] at h
      cases h
  | _ => rfl

/-- HASH's accept step: the three faults in their order, or the start (R141, R214). -/
theorem hashBody_cases (s : State) :
    (negative s.offset = true ∧ hashBody s = raiseFault .negOffset s.offset s) ∨
    (negative s.offset = false ∧ negative s.length = true ∧
      hashBody s = raiseFault .negLength s.length s) ∨
    (negative s.offset = false ∧ negative s.length = false ∧
      s.bufsize.toNat < s.offset.toNat + s.length.toNat ∧
      hashBody s =
        raiseFault .outOfBounds (BitVec.ofNat 32 (s.offset.toNat + s.length.toNat)) s) ∨
    (negative s.offset = false ∧ negative s.length = false ∧
      s.offset.toNat + s.length.toNat ≤ s.bufsize.toNat ∧ hashBody s = startSequencer s) := by
  unfold hashBody
  split
  · exact .inl ⟨‹_›, rfl⟩
  · rename_i h1
    have h1 : negative s.offset = false := by simpa using h1
    split
    · exact .inr (.inl ⟨h1, ‹_›, rfl⟩)
    · rename_i h2
      have h2 : negative s.length = false := by simpa using h2
      split
      · exact .inr (.inr (.inl ⟨h1, h2, ‹_›, rfl⟩))
      · exact .inr (.inr (.inr ⟨h1, h2, by omega, rfl⟩))

/-! ### The sequencer -/

/-- The state in which SEQ's reads are noted. -/
def afterReads (s : State) (a n d : Nat) : State :=
  { s with bufReads := s.bufReads ++ List.range' a n, draws := d }

/-- The index SEQ's next reads begin at, and how many they are (R143, R144). -/
def nextReads (s : State) : Nat × Nat :=
  if s.seq.idx.toNat < s.seq.nb.toNat then (s.offset.toNat + 4 * s.seq.idx.toNat, 4)
  else (s.offset.toNat + 4 * s.seq.nb.toNat, tailCount s.length)

/-- Everything a SEQ step that answers a next state can have done (R142 to R146, R255). -/
inductive SeqTo (s t : State) : Prop where
  | idle (hp : s.seq.phase = .idle) (e : t = s)
  | hang (hp : s.seq.phase = .blk) (j : Nat) (hj : j < (nextReads s).2)
      (hw : Answer.withheld ∈ s.buf.answer ((nextReads s).1 + j) ::
        staleAt s ((nextReads s).1 + j)) (e : t = s)
  | error (hp : s.seq.phase = .blk) (j d : Nat) (hj : j < (nextReads s).2)
      (hlt : (nextReads s).1 + j < Config.bufferSpace)
      (he : Answer.err ∈ s.buf.answer ((nextReads s).1 + j) :: staleAt s ((nextReads s).1 + j))
      (e : t = raiseFault .bufError (BitVec.ofNat 32 ((nextReads s).1 + j))
        (afterReads s (nextReads s).1 (j + 1) d))
  | block (hp : s.seq.phase = .blk) (hi : s.seq.idx.toNat < s.seq.nb.toNat) (bs : List Byte)
      (d : Nat) (hl : bs.length = 4)
      (e : t = mixBlock bs (afterReads s (s.offset.toNat + 4 * s.seq.idx.toNat) 4 d))
  | final (hp : s.seq.phase = .blk) (hi : s.seq.idx = s.seq.nb) (bs : List Byte) (d : Nat)
      (hl : bs.length = tailCount s.length)
      (e : t = finishHash bs
        (afterReads s (s.offset.toNat + 4 * s.seq.nb.toNat) (tailCount s.length) d))

theorem seqStep_cases {s t : State} (h : seqStep s = .next t) : SeqTo s t := by
  unfold seqStep at h
  split at h
  · exact .idle ‹_› (by cases h; rfl)
  · rename_i hp
    split at h
    · rename_i hi
      have hn : nextReads s = (s.offset.toNat + 4 * s.seq.idx.toNat, 4) := if_pos hi
      have hf := readBytes_spec 4 (s.offset.toNat + 4 * s.seq.idx.toNat) s
      unfold blockStep at h
      cases hr : readBytes 4 (s.offset.toNat + 4 * s.seq.idx.toNat) s with
      | bytes bs u =>
        rw [hr] at h hf
        obtain ⟨hl, -, d, hu⟩ := hf
        exact .block hp hi bs d hl (by cases h; rw [hu]; rfl)
      | error a u =>
        rw [hr] at h hf
        obtain ⟨j, hj, rfl, hlt, he, d, hu⟩ := hf
        refine .error hp j d ?_ ?_ ?_ ?_ <;> rw [hn]
        · exact hj
        · exact hlt
        · exact he
        · cases h; rw [hu]; rfl
      | hang =>
        rw [hr] at h hf
        obtain ⟨j, hj, hw⟩ := hf
        refine .hang hp j ?_ ?_ (by cases h; rfl) <;> rw [hn]
        · exact hj
        · exact hw
      | outside a => rw [hr] at h; cases h
    · rename_i hi
      split at h
      · rename_i he
        have hn : nextReads s = (s.offset.toNat + 4 * s.seq.nb.toNat, tailCount s.length) :=
          if_neg hi
        have hf := readBytes_spec (tailCount s.length) (s.offset.toNat + 4 * s.seq.nb.toNat) s
        unfold finalStep at h
        cases hr : readBytes (tailCount s.length) (s.offset.toNat + 4 * s.seq.nb.toNat) s with
        | bytes bs u =>
          rw [hr] at h hf
          obtain ⟨hl, -, d, hu⟩ := hf
          exact .final hp he bs d hl (by cases h; rw [hu]; rfl)
        | error a u =>
          rw [hr] at h hf
          obtain ⟨j, hj, rfl, hlt, he, d, hu⟩ := hf
          refine .error hp j d ?_ ?_ ?_ ?_ <;> rw [hn]
          · exact hj
          · exact hlt
          · exact he
          · cases h; rw [hu]; rfl
        | hang =>
          rw [hr] at h hf
          obtain ⟨j, hj, hw⟩ := hf
          refine .hang hp j ?_ ?_ (by cases h; rfl) <;> rw [hn]
          · exact hj
          · exact hw
        | outside a => rw [hr] at h; cases h
      · cases h

/-! ### Numbers of a running HASH -/

theorem blockCount_toNat (len : Word) : (blockCount len).toNat = len.toNat / 4 := by
  simp [blockCount, Nat.shiftRight_eq_div_pow]

theorem tailCount_eq (len : Word) : tailCount len = len.toNat % 4 := by
  simp only [tailCount, BitVec.toNat_and, BitVec.toNat_ofNat]
  exact Nat.and_two_pow_sub_one_eq_mod len.toNat 2

theorem negative_eq_false {v : Word} : negative v = false ↔ v.toNat < 2 ^ 31 := by
  have h := BitVec.msb_eq_decide v
  rw [BitVec.msb_eq_getLsbD_last] at h
  simp only [negative, h, decide_eq_false_iff_not]
  omega

/-! ### Runs -/

theorem runFor_succ {s t : State} (h : step s = .next t) (k : Nat) :
    runFor (k + 1) s = runFor k t := by
  rw [runFor, h]

theorem step_of_runFor_succ {s t : State} {k : Nat} (h : runFor (k + 1) s = .next t) :
    ∃ u, step s = .next u ∧ runFor k u = .next t := by
  rw [runFor] at h
  split at h
  · exact ⟨_, ‹_›, h⟩
  · cases h
  · cases h

/-- A run that does not stop, cut in two. -/
theorem runFor_add {s t u : State} {j k : Nat} (h1 : runFor j s = .next t)
    (h2 : runFor k t = .next u) : runFor (j + k) s = .next u := by
  induction j generalizing s with
  | zero =>
    cases h1
    simpa using h2
  | succ j ih =>
    obtain ⟨v, hv, hr⟩ := step_of_runFor_succ h1
    rw [show j + 1 + k = (j + k) + 1 from by omega, runFor_succ hv]
    exact ih hr

/-! ### A HOST write and the step of the machine -/

/-- What a HOST write leaves in the state: nothing but what its rule gives (R59, R211). -/
inductive WriteTo (off : Offset) (w : Word) (s t : State) : Prop where
  | command (i : Instr) (ho : off = 0x08#6) (hd : decode w = .ok i) (hw : i.wellFormed = true)
      (e : t = acceptedState i s)
  | dropped (hf : s.status.fault = true) (hd : ∃ x, decode w = .error x) (e : t = s)
  | illegal (ho : off = 0x08#6) (hf : s.status.fault = false) (hd : ∃ x, decode w = .error x)
      (e : t = raiseFault .illegalCmd w (clearDone s))
  | register (a sd ac o l b : Word) (ie : IntEn) (e : t = { s with
      arg := a, seed := sd, acc := ac, offset := o, length := l, bufsize := b, inten := ie })
  | refused (e : t = raiseFault .badReg (off.setWidth 32) s)

theorem wellFormed_of_decode {w : Word} {i : Instr} (h : decode w = .ok i) :
    i.wellFormed = true := by
  unfold decode at h
  split at h
  · cases h
  · split at h
    · cases h
      simpa [Instr.wellFormed] using (countField w).isLt
    · split at h
      · cases h
      · unfold decodeOpcode at h
        repeat' split at h
        all_goals first | (cases h; rfl) | cases h

theorem regAt_cmd : ∀ {off : Offset}, regAt off = some .cmd → off = 0x08#6 := by
  decide

theorem hostWrite_next (off : Offset) (w : Word) (s : State) :
    ∃ t, hostWrite off w s = .next t ∧ WriteTo off w s t := by
  unfold hostWrite
  split
  · rename_i ho
    unfold acceptWord
    cases hd : decode w with
    | ok i =>
      exact ⟨_, exec_eq i s (wellFormed_of_decode hd),
        .command i (regAt_cmd ho) hd (wellFormed_of_decode hd) rfl⟩
    | error x =>
      by_cases hf : s.status.fault = true
      · exact ⟨s, by simp [hf], .dropped hf ⟨x, hd⟩ rfl⟩
      · exact ⟨_, by simp only [if_neg hf],
          .illegal (regAt_cmd ho) (by simpa using hf) ⟨x, hd⟩ rfl⟩
  all_goals first
    | exact ⟨_, rfl, .register _ _ _ _ _ _ _ rfl⟩
    | exact ⟨_, rfl, .refused rfl⟩

/-- Everything a step that answers a next state can have done (R6, R58, R240, R250; log 1). -/
inductive StepTo (s t : State) : Prop where
  /-- The hardware reset (R240). -/
  | reset (ts : List Turn) (h : s.turns = .reset :: ts)
      (e : t = hardwareReset { s with turns := ts })
  /-- A change of the buffer by the platform (R62). -/
  | buffer (a : Word) (v : Answer) (ts : List Turn) (h : s.turns = .buffer a v :: ts)
      (e : t = changeBuffer a v { s with turns := ts })
  /-- A HOST write that takes its step (R59, R250). -/
  | write (wr : HostWrite) (q : List HostOp) (hd : Option HostWrite) (ts : List Turn)
      (hb : s.status.busy = false) (hn : s.nextWrite = some wr)
      (e : WriteTo wr.off wr.data { s with host := q, held := hd, turns := ts } t)
  /-- HOST reads, issues a write that is held, polls, or has no step (R58, R250, R78). -/
  | host (q : List HostOp) (hd : Option HostWrite) (rd : List (Offset × Word)) (ts : List Turn)
      (e : t = { s with host := q, held := hd, readData := rd, turns := ts })
  /-- SEQ's turn (R142). -/
  | seq (ts : List Turn) (e : SeqTo { s with turns := ts } t)

theorem heldFirst_none {s : State} (h : s.held = none) (o : Outcome) : heldFirst s o = o := by
  unfold heldFirst
  rw [h]
  cases s.status.busy <;> rfl

theorem heldFirst_busy {s : State} (h : s.status.busy = true) (o : Outcome) :
    heldFirst s o = o := by
  unfold heldFirst
  rw [h]

theorem heldFirst_due {s : State} {wr : HostWrite} (hb : s.status.busy = false)
    (h : s.held = some wr) (o : Outcome) :
    heldFirst s o = hostWrite wr.off wr.data { s with held := none } := by
  unfold heldFirst
  rw [hb, h]

/-- What HOST reads does not depend on what HOST and the schedule hold. -/
theorem hostReadValue_agents (off : Offset) (s : State) (q : List HostOp) (hd : Option HostWrite)
    (rd : List (Offset × Word)) (ts : List Turn) :
    hostReadValue off { s with host := q, held := hd, readData := rd, turns := ts } =
      hostReadValue off s := by
  unfold hostReadValue
  split
  · rename_i r _
    cases r <;> rfl
  · rfl

/-- What HOST's turn can do. -/
theorem hostStep_next (s : State) :
    ∃ t, hostStep s = .next t ∧
      ((∃ q hd rd, t = { s with host := q, held := hd, readData := rd }) ∨
       ∃ (wr : HostWrite) (rest : List HostOp), s.held = none ∧ s.status.busy = false ∧
         s.host = .write wr.off wr.data :: rest ∧
         WriteTo wr.off wr.data { s with host := rest } t) := by
  unfold hostStep
  split
  · exact ⟨s, rfl, .inl ⟨_, _, _, rfl⟩⟩
  · rename_i hheld
    unfold issue
    split
    · exact ⟨s, rfl, .inl ⟨_, _, _, rfl⟩⟩
    · exact ⟨_, rfl, .inl ⟨_, _, _, rfl⟩⟩
    · rename_i off w rest hhost
      by_cases hb : s.status.busy = true
      · exact ⟨_, by rw [if_pos hb], .inl ⟨_, _, _, rfl⟩⟩
      · obtain ⟨t, ht, hw⟩ := hostWrite_next off w { s with host := rest }
        exact ⟨t, by rw [if_neg hb, ht],
          .inr ⟨⟨off, w⟩, rest, hheld, by simpa using hb, hhost, hw⟩⟩
    · split
      · exact ⟨_, rfl, .inl ⟨_, _, _, rfl⟩⟩
      · exact ⟨_, rfl, .inl ⟨_, _, _, rfl⟩⟩

theorem step_cases {s t : State} (h : step s = .next t) : StepTo s t := by
  have key : ∀ o : Outcome, heldFirst s o = .next t →
      (∀ a v ts, s.turns ≠ .buffer a v :: ts) → (∀ ts, s.turns ≠ .reset :: ts) →
      (o = .next t → (s.status.busy = true ∨ s.held = none) → StepTo s t) → StepTo s t := by
    intro o ho hnb hnr hk
    unfold heldFirst at ho
    split at ho
    · rename_i wr hb hh
      obtain ⟨t', ht', hw⟩ := hostWrite_next wr.off wr.data { s with held := none }
      rw [ht'] at ho
      cases ho
      refine .write wr s.host none s.turns hb ?_ hw
      unfold State.nextWrite
      rw [hb, hh]
      split <;> simp_all
    · rename_i hx
      refine hk ho ?_
      by_cases hb : s.status.busy = true
      · exact .inl hb
      · refine .inr ?_
        cases hh : s.held with
        | none => rfl
        | some wr => exact absurd hh (by simpa using hx wr (by simpa using hb))
  have hhost : ∀ ts u, u = { s with turns := ts } → hostStep u = .next t →
      (s.turns = .host :: ts ∨ s.turns = [] ∧ ts = [] ∧ s.seq.phase = .idle) → StepTo s t := by
    intro ts u hu ho hturn
    obtain ⟨t', ht', hw⟩ := hostStep_next u
    rw [ht'] at ho
    cases ho
    rcases hw with ⟨q, hd, rd, e⟩ | ⟨wr, rest, hheld, hb, hq, hw⟩
    · exact .host q hd rd ts (by rw [e, hu])
    · subst hu
      refine .write wr rest s.held ts hb ?_ hw
      have hb' : s.status.busy = false := hb
      have hh' : s.held = none := hheld
      have hq' : s.host = .write wr.off wr.data :: rest := hq
      unfold State.nextWrite
      rcases hturn with hturn | ⟨hturn, -, hp⟩
      · simp [hturn, hb', hh', hq', headWrite]
      · simp [hturn, hb', hh', hq', hp, headWrite]
  unfold step machineStep at h
  split at h
  · rename_i ts hts
    exact .reset ts hts (by cases h; rfl)
  · rename_i a v ts hts
    exact .buffer a v ts hts (by cases h; rfl)
  · rename_i ts hts
    exact key _ h (by simp [hts]) (by simp [hts]) fun ho _ => hhost ts _ rfl ho (.inl hts)
  · rename_i ts hts
    exact key _ h (by simp [hts]) (by simp [hts]) fun ho _ =>
      .seq ts (seqStep_cases ho)
  · rename_i hts
    refine key _ h (by simp [hts]) (by simp [hts]) fun ho _ => ?_
    split at ho
    · exact .seq [] (seqStep_cases (by rwa [← hts]))
    · rename_i hp
      exact hhost [] s (by rw [← hts]) ho (.inr ⟨hts, rfl, hp⟩)

end Sys2Proof.Machine
end

