-- ==== Sys2Proof/Laws/Stream.lean ====
section
/-! SUPPORT. What the assembler answers, and how a step runs HOST's next access. -/

namespace Sys2Proof.Machine

/-! ### The assembler (R77, R78) -/

theorem immediate_of_lt {n : Nat} (h : n < 2 ^ 32) : immediate n = some (BitVec.ofNat 32 n) :=
  if_pos h

theorem immediate_of_ge {n : Nat} (h : 2 ^ 32 ≤ n) : immediate n = none :=
  if_neg (Nat.not_lt.mpr h)

theorem writeStmt_reg {n : Nat} (r : Reg) (h : n < 2 ^ 32) :
    writeStmt (.reg r) n = some [.write (regOffset r) (BitVec.ofNat 32 n)] := by
  rw [writeStmt, immediate_of_lt h]
  rfl

theorem writeStmt_raw {off n : Nat} (ho : off < 64) (h : n < 2 ^ 32) :
    writeStmt (.raw off) n = some [.write (BitVec.ofNat 6 off) (BitVec.ofNat 32 n)] := by
  rw [writeStmt, immediate_of_lt h, targetOffset, if_pos ho]

theorem writeStmt_refused {n : Nat} (t : Target) (h : 2 ^ 32 ≤ n) : writeStmt t n = none := by
  rw [writeStmt, immediate_of_ge h]
  cases targetOffset t <;> rfl

theorem commandStmt_of_wf {i : Instr} (h : i.wellFormed = true) :
    commandStmt i = some [.write (regOffset .cmd) (encode i)] :=
  if_pos h

theorem commandStmt_refused {n : Nat} (h : 4 ≤ n) : commandStmt (.tail n) = none :=
  if_neg (by simpa [Instr.wellFormed] using h)

@[simp] theorem stmtThen_some (a b : List HostOp) : stmtThen (some a) (some b) = some (a ++ b) :=
  rfl

@[simp] theorem stmtThen_none_left (b : Option (List HostOp)) : stmtThen none b = none := by
  cases b <;> rfl

@[simp] theorem stmtThen_none_right (a : Option (List HostOp)) : stmtThen a none = none := by
  cases a <;> rfl

theorem stmtThen_assoc (a b c : Option (List HostOp)) :
    stmtThen (stmtThen a b) c = stmtThen a (stmtThen b c) := by
  cases a <;> cases b <;> cases c <;> simp

theorem assembleAll_append (l m : List Stmt) :
    assembleAll (l ++ m) = stmtThen (assembleAll l) (assembleAll m) := by
  induction l with
  | nil => cases h : assembleAll m <;> simp [assembleAll, h]
  | cons a l ih => simp [assembleAll, ih, stmtThen_assoc]

/-! ### One access of HOST's queue, while no turn is listed (R250; log 1) -/

/-- A write at the head of HOST's queue takes its step. -/
theorem step_head_write {s : State} {off : Offset} {w : Word} {rest : List HostOp}
    (hq : s.host = .write off w :: rest) (hb : s.status.busy = false)
    (hp : s.seq.phase = .idle) (hh : s.held = none) (ht : s.turns = []) :
    step s = hostWrite off w { s with host := rest } := by
  unfold step machineStep
  rw [ht]
  simp only [heldFirst_none hh, hp]
  unfold hostStep
  simp only [hh]
  unfold issue
  simp [hq, hb, hh, ht]

end Sys2Proof.Machine
end

