-- ==== Sys2Proof/Tests/Slice0.lean ====
section
/-! SUPPORT. Tests: the WellFormed smoke, words written out from R70 and R73, vectors of spec/95_test_vectors.md, and for every obligation with hypotheses a state and operands that meet them. -/

open Sys2Proof Sys2Proof.Machine

namespace Sys2Proof.Tests

/-! ### The helpers: a step's next state, and small states -/

def next? (o : Outcome) : Option State :=
  match o with
  | .next s => some s
  | .fault _ => none
  | .refused _ => none

/-- Reset, but for ARG, ACC and SEED: "test" little-endian, 0, and V-M12's seed. -/
def ready : State :=
  { State.reset with arg := 0x74736574#32, acc := 0#32, seed := 0x9747b28c#32 }

/-- V-E10's start: `raw 0x00000007` from reset. -/
def faulted : State :=
  { State.reset with
    status := { busy := false, done := false, fault := true, fcause := 1#4 }
    finfo := 7#32 }

/-- P1's set-up: "abcde" at 0-4, BUF_BYTES = 5, BUFSIZE = LENGTH = 5, SEED = 0. -/
def abcde : State :=
  { State.reset with
    bufsize := 5#32
    length := 5#32
    seed := 0#32
    buf := { mem := [(0, 0x61#8), (1, 0x62#8), (2, 0x63#8), (3, 0x64#8), (4, 0x65#8)]
             bytes := 5
             silent := [] } }

/-- P1 after its accept step: S.h = 0, S.nb = 1. -/
def running : State :=
  { abcde with
    status := { busy := true, done := false, fault := false, fcause := 0#4 }
    seq := { phase := .blk, h := 0#32, idx := 0#32, nb := 1#32 } }

/-- P1 after its block step. -/
def lastStep : State :=
  { running with
    seq := { phase := .blk, h := 0x86a7049e#32, idx := 1#32, nb := 1#32 }
    bufReads := [0, 1, 2, 3] }

/-- HOST moves next with the accesses `ops`, while P1's HASH runs. -/
def stalling (ops : List HostOp) : State :=
  { running with host := ops, turns := [.host] }

/-- HOST's write of ARG is held, and no HASH runs. -/
def due : State :=
  { ready with held := some { off := 0x0C#6, data := 7#32 } }

/-- HOST's next access is the write of `tail 1` to CMD; the turns are `ts`. -/
def issuing (ts : List Turn) : State :=
  { ready with host := [.write 0x08#6 0x103#32], turns := ts }

/-- P1 with two bytes backed: the block step's third read fails. -/
def shortened : State :=
  { running with buf := { running.buf with bytes := 2 } }

/-- A state whose BUF never answers the indices `l`. -/
def muted (s : State) (l : List Nat) : State :=
  { s with buf := { s.buf with silent := l } }

/-- The bytes "abcde", by index. -/
def letters (n : Nat) : Byte := BitVec.ofNat 8 (0x61 + n)

/-! ### WellFormed (R70): a term that no word encodes is refused -/

theorem test_tail_four_is_ill_formed : (Instr.tail 4).wellFormed = false := by decide

theorem test_tail_three_is_well_formed : (Instr.tail 3).wellFormed = true := by decide

theorem test_ill_formed_tail_is_refused :
    exec (.tail 4) ready = .refused (.illFormedCount 4) := by rfl

/-! ### Decoding: RSV [31:10], N [9:8], OPC [7:0] of R70, written bit by bit -/

theorem test_decode_nop : decode 0b0000000000000000000000_00_00000000#32 = .ok .nop := by rfl

theorem test_decode_init : decode 0b0000000000000000000000_00_00000001#32 = .ok .init := by rfl

theorem test_decode_mix : decode 0b0000000000000000000000_00_00000010#32 = .ok .mix := by rfl

theorem test_decode_tail0 : decode 0b0000000000000000000000_00_00000011#32 = .ok (.tail 0) := by
  rfl

theorem test_decode_tail1 : decode 0b0000000000000000000000_01_00000011#32 = .ok (.tail 1) := by
  rfl

theorem test_decode_tail2 : decode 0b0000000000000000000000_10_00000011#32 = .ok (.tail 2) := by
  rfl

theorem test_decode_tail3 : decode 0b0000000000000000000000_11_00000011#32 = .ok (.tail 3) := by
  rfl

theorem test_decode_final : decode 0b0000000000000000000000_00_00000100#32 = .ok .final := by rfl

theorem test_decode_hash : decode 0b0000000000000000000000_00_00000101#32 = .ok .hash := by rfl

theorem test_decode_clrf : decode 0b0000000000000000000000_00_00001110#32 = .ok .clrf := by rfl

theorem test_decode_srst : decode 0b0000000000000000000000_00_00001111#32 = .ok .srst := by rfl

/-- The illegal words of V-E7 and V-M14, and the ends of R75's ranges. -/
theorem test_decode_illegal :
    decode 0x00000006#32 = .error .unassignedOpcode ∧
    decode 0x0000000D#32 = .error .unassignedOpcode ∧
    decode 0x00000010#32 = .error .unassignedOpcode ∧
    decode 0x000000FF#32 = .error .unassignedOpcode ∧
    decode 0x00000400#32 = .error .reservedBits ∧
    decode 0x00000403#32 = .error .reservedBits ∧
    decode 0x80000003#32 = .error .reservedBits ∧
    decode 0xFFFFFFFF#32 = .error .reservedBits ∧
    decode 0x00000102#32 = .error .countOutsideTail ∧
    decode 0x0000010E#32 = .error .countOutsideTail := by
  refine ⟨?_, ?_, ?_, ?_, ?_, ?_, ?_, ?_, ?_, ?_⟩ <;> rfl

theorem test_decode_table_word :
    decodeTableWord 32 0x303 = some (.tail 3) ∧ decodeTableWord 32 0x304 = none := by decide

/-- R29, R73: the word of `tail 2` is placed as HOST's next write of CMD and runs. -/
theorem test_fetch_runs_tail :
    next? (step (State.reset.withFetchWord 32 0x203)) = next? (exec (.tail 2) State.reset) := by
  decide

/-! ### The commands (spec/95_test_vectors.md) -/

/-- V-C1. -/
theorem test_nop_sets_done :
    (next? (exec .nop State.reset)).map (·.status.word) = some 0x02#32 := by decide

/-- R190: a NOP that leaves DONE = 0 was dropped. -/
theorem test_nop_dropped : next? (exec .nop faulted) = some faulted := by decide

/-- V-M12. -/
theorem test_init_seed :
    (next? (exec .init ready)).map (fun t => (t.acc, t.status.word)) =
      some (0x9747b28c#32, 0x02#32) := by decide

/-- V-M13. -/
theorem test_init_after_reset :
    (next? (exec .init State.reset)).map (·.acc) = some 0x00019919#32 := by decide

/-- V-M8: both multiplies and the add wrap. -/
theorem test_mix_wraps :
    (next? (exec .mix { ready with arg := 0xFFFFFFFF#32, acc := 0xFFFFFFFF#32 })).map (·.acc) =
      some 0xb849f5ee#32 := by decide

/-- V-M11. -/
theorem test_mix_from_reset_acc :
    (next? (exec .mix { State.reset with arg := 0x12345678#32 })).map (·.acc) =
      some 0xad57f02e#32 := by decide

/-- V-T5: the bits of ARG above the byte are ignored. -/
theorem test_tail1_ignores_high_bits :
    (next? (exec (.tail 1) { ready with arg := 0xFFFFFF61#32 })).map (·.acc) =
      some 0x504ba9d5#32 := by decide

/-- V-T9: three bytes, in their order. -/
theorem test_tail3_order :
    (next? (exec (.tail 3) { ready with arg := 0xFF636261#32 })).map (·.acc) =
      some 0xa7349db7#32 := by decide

/-- V-F10. -/
theorem test_final_result :
    (next? (exec .final { ready with arg := 4#32, acc := 0x7985975b#32 })).map
      (fun t => (t.acc, t.result)) = some (0xba6bd213#32, 0xba6bd213#32) := by decide

/-- V-F12: bit 31 of the length is not checked. -/
theorem test_final_high_length :
    (next? (exec .final { ready with arg := 0x80000000#32 })).map
      (fun t => (t.result, t.status.word)) = some (0x6d3c65a0#32, 0x02#32) := by decide

/-- V-E3: NEG_OFFSET wins. -/
theorem test_hash_negative_offset_first :
    (next? (exec .hash { State.reset with offset := 0x80000000#32, length := 0x80000000#32 })).map
      (fun t => (t.status.word, t.finfo)) = some (0x24#32, 0x80000000#32) := by decide

/-- V-E6: a range that ends exactly at the bound. -/
theorem test_hash_at_bound :
    (next? (exec .hash
      { State.reset with offset := 2#32, length := 3#32, bufsize := 5#32 })).map
      (·.status.word) = some 0x01#32 := by decide

/-- V-E12. -/
theorem test_clrf_clears :
    (next? (exec .clrf faulted)).map (fun t => (t.status.word, t.finfo)) = some (0x02#32, 0#32) := by
  decide

/-- V-E11: 0x0000010E is not CLRF; while FAULT = 1 it is dropped. -/
theorem test_clrf_word_exact : next? (hostWrite 0x08#6 0x0000010E#32 faulted) = some faulted := by
  decide

/-- R192's example. -/
theorem test_srst_resets :
    (next? (exec .srst { faulted with seed := 5#32, acc := 0x1234#32 })).map
      (fun t => (t.seed, t.acc, t.status.word)) = some (0x00019919#32, 0x00019919#32, 0#32) := by
  decide

/-- V-C3's `irq`, from FAULT with both sources enabled. -/
theorem test_srst_drops_irq :
    irq { faulted with inten := intenOfWord 0xFFFFFFFF#32 } = true ∧
    (next? (exec .srst { faulted with inten := intenOfWord 0xFFFFFFFF#32 })).map irq =
      some false := by decide

/-! ### The sequencer (P1, V-E14, V-H6) -/

/-- P1's block step. -/
theorem test_block_step : next? (step running) = some lastStep := by decide

/-- P1's final step. -/
theorem test_final_step :
    (next? (step lastStep)).map (fun t => (t.result, t.seq.h, t.status.word)) =
      some (0xe89b9af6#32, 0x0b9a97d7#32, 0x02#32) := by decide

/-- V-E14's second SEQ step, with LENGTH = 8 over five backed bytes. -/
theorem test_buffer_error :
    (next? (step { lastStep with length := 8#32, bufsize := 8#32, acc := 0x1111#32
                                 seq := { lastStep.seq with nb := 2#32 } })).map
      (fun t => (t.status.word, t.finfo, t.acc, t.bufReads)) =
      some (0x54#32, 5#32, 0x1111#32, [0, 1, 2, 3, 4, 5]) := by decide

/-- V-H14: "Hello, world!" at an unaligned offset. -/
theorem test_murmur3_hello :
    murmur3 (fun a => ([0x78, 0x78, 0x48, 0x65, 0x6c, 0x6c, 0x6f, 0x2c, 0x20, 0x77, 0x6f, 0x72,
      0x6c, 0x64, 0x21, 0x79, 0x79] : List Byte).getD a 0#8) 2 13 0x9747b28c#32 = 0x24884cba#32 := by
  decide

/-- V-T13: a byte is zero-extended. -/
theorem test_murmur3_zero_extends : murmur3 (fun _ => 0xFF#8) 0 1 0#32 = 0xfd6cf10d#32 := by decide

/-! ### HOST accesses (V-E8, V-E9, V-E13, V-C2, V-C4) -/

/-- V-E8. -/
theorem test_bad_reg :
    (next? (hostWrite 0x0E#6 0x1234#32 State.reset)).map (fun t => (t.status.word, t.finfo)) =
      some (0x64#32, 0x0E#32) ∧
    (next? (hostWrite 0x00#6 0x1234#32 State.reset)).map (fun t => (t.status.word, t.finfo)) =
      some (0x64#32, 0#32) := by decide

/-- V-E13: the first fault is kept. -/
theorem test_bad_reg_keeps_first :
    next? (hostWrite 0x04#6 1#32 faulted) = some faulted := by decide

/-- V-E10: register writes are not dropped. -/
theorem test_arg_written_while_faulted :
    (next? (hostWrite 0x0C#6 5#32 faulted)).map (·.arg) = some 5#32 := by decide

/-- V-M14. -/
theorem test_illegal_word :
    (next? (hostWrite 0x08#6 0x00000102#32 State.reset)).map
      (fun t => (t.status.word, t.finfo, t.acc)) =
      some (0x14#32, 0x102#32, 0x00019919#32) := by decide

/-- V-C2, V-C4, V-E9. -/
theorem test_reads :
    (next? (hostWrite 0x28#6 0xFFFFFFFF#32 State.reset)).map (hostReadValue 0x28#6) = some 3#32 ∧
    hostReadValue 0x00#6 State.reset = 0x4D334D01#32 ∧
    hostReadValue 0x08#6 ready = 0#32 ∧ hostReadValue 0x30#6 ready = 0#32 ∧
    hostReadValue 0x05#6 ready = 0#32 := by decide

/-! ### The text of a command stream (R77, R78) -/

theorem test_line_write :
    assembleLine "wr BUFSIZE, 5          # size".toList = some [.write 0x20#6 5#32] := by decide

theorem test_line_tail_immediate :
    assembleLine "tail 3, 0x636261".toList =
      some [.write 0x0C#6 0x636261#32, .write 0x08#6 0x303#32] := by decide

theorem test_line_raw_offset :
    assembleLine "rd @0x05".toList = some [.read 0x05#6] ∧
    assembleLine "  # nothing".toList = some [] := by decide

theorem test_line_refused :
    assembleLine "raw 4294967296".toList = none ∧ assembleLine "tail 4".toList = none ∧
    assembleLine "jump 3".toList = none := by decide

/-! ### The states above meet the invariant -/

theorem test_ready_inv : ready.Inv :=
  ⟨by decide, by decide, by decide, by decide, by decide, fun h => absurd h (by decide),
    by decide, by decide⟩

theorem test_faulted_inv : faulted.Inv :=
  ⟨by decide, by decide, by decide, by decide, by decide, fun h => absurd h (by decide),
    by decide, by decide⟩

theorem test_running_inv : running.Inv :=
  ⟨by decide, by decide, by decide, by decide, by decide,
    fun _ => ⟨by decide, by decide, by decide, by decide, by decide⟩, by decide, by decide⟩

theorem test_lastStep_inv : lastStep.Inv :=
  ⟨by decide, by decide, by decide, by decide, by decide,
    fun _ => ⟨by decide, by decide, by decide, by decide, by decide⟩, by decide, by decide⟩

theorem test_shortened_inv : shortened.Inv :=
  ⟨by decide, by decide, by decide, by decide, by decide,
    fun _ => ⟨by decide, by decide, by decide, by decide, by decide⟩, by decide, by decide⟩

theorem test_running_backed : running.Backed letters := by
  refine ⟨rfl, fun a _ h => ?_⟩
  have ha : a < 5 := h
  interval_cases a <;> rfl

theorem test_running_answering : running.Answering := by
  intro a _ h v hv
  have ha : a < 5 := h
  have hs : staleAt running a = [] := rfl
  rw [hs, test_running_backed.2 a (Nat.zero_le _) h, List.mem_singleton] at hv
  rw [hv]
  exact Answer.noConfusion

theorem test_quiet (s : State) (h : s.turns = []) : s.Undisturbed := by
  intro t ht
  rw [h] at ht
  cases ht

/-! ### Witnesses: every obligation with hypotheses has states and operands that meet them -/

theorem test_witness_DecodeOfEncode :
    (Instr.tail 0).wellFormed = true ∧ (Instr.tail 3).wellFormed = true := by decide

theorem test_witness_EncodeOfDecode : decode 0x00000303#32 = .ok (.tail 3) := by rfl

theorem test_witness_BytesAssembledLittleEndian : ([0xFF#8, 0x00#8, 0xFF#8]).length ≤ 3 := by decide

/-- Both premises of a command's clauses: BUSY = 0, with FAULT = 0 and with FAULT = 1. -/
def BothFaultStates : Prop :=
  (ready.status.busy = false ∧ ready.status.fault = false) ∧
    (faulted.status.busy = false ∧ faulted.status.fault = true)

theorem test_both_fault_states : BothFaultStates := by
  refine ⟨⟨?_, ?_⟩, ?_, ?_⟩ <;> rfl

theorem test_witness_NopOnlyCompletes : BothFaultStates := test_both_fault_states

theorem test_witness_InitLoadsSeed : BothFaultStates := test_both_fault_states

theorem test_witness_MixMixesArgIntoAcc : BothFaultStates := test_both_fault_states

theorem test_witness_FinalFinalisesAcc : BothFaultStates := test_both_fault_states

theorem test_witness_ClrfClearsFaultRecord : BothFaultStates := test_both_fault_states

/-- Both kinds of FAULT state, and SRST issued while a HASH runs. -/
theorem test_witness_SrstResetsBlock : BothFaultStates ∧
    (stalling [.write 0x08#6 0x0F#32]).status.busy = true ∧
    (stalling [.write 0x08#6 0x0F#32]).held = none ∧
    (stalling [.write 0x08#6 0x0F#32]).turns = .host :: [] ∧
    (stalling [.write 0x08#6 0x0F#32]).host = .write 0x08#6 0x0000000F#32 :: [] :=
  ⟨test_both_fault_states, rfl, rfl, rfl, rfl⟩

theorem test_witness_IllegalWordsExactly :
    (∃ e, decode 0x0000010E#32 = .error e) ∧ ready.status.busy = false ∧
    ready.status.fault = false :=
  ⟨⟨_, rfl⟩, rfl, rfl⟩

theorem test_witness_TailFoldsLowBytesOfArg :
    (ready.status.busy = false ∧ ready.status.fault = false ∧ 3 < 4) ∧
    (faulted.status.busy = false ∧ faulted.status.fault = true ∧ 0 < 4) := by decide

theorem test_witness_IllFormedTailIsRefused : 4 ≤ 4 ∧ decode 0x00000303#32 = .ok (.tail 3) :=
  ⟨by decide, rfl⟩

/-- Each of the five outcomes, at the ends of its range. -/
theorem test_witness_HashChecksAndStarts :
    (faulted.status.busy = false ∧ faulted.status.fault = true) ∧
    (ready.status.busy = false ∧ ready.status.fault = false) ∧
    2 ^ 31 ≤ (0x80000000#32 : Word).toNat ∧ (0x7FFFFFFF#32 : Word).toNat < 2 ^ 31 ∧
    (4#32 : Word).toNat < (1#32 : Word).toNat + (4#32 : Word).toNat ∧
    (2#32 : Word).toNat + (3#32 : Word).toNat ≤ (5#32 : Word).toNat ∧
    (0x7FFFFFFF#32 : Word).toNat + (0x7FFFFFFF#32 : Word).toNat ≤
      (0xFFFFFFFF#32 : Word).toNat := by decide

theorem test_witness_RegisterCommandFrame :
    (∃ t, exec (.tail 2) ready = .next t) ∧ (∃ t, exec .clrf faulted = .next t) ∧
    (∃ t, exec .final ready = .next t) ∧ (∃ t, exec .mix ready = .next t) ∧
    (∃ t, exec .init ready = .next t) ∧ (∃ t, exec .nop ready = .next t) :=
  ⟨⟨_, rfl⟩, ⟨_, rfl⟩, ⟨_, rfl⟩, ⟨_, rfl⟩, ⟨_, rfl⟩, ⟨_, rfl⟩⟩

theorem test_witness_HashAcceptFrame :
    ∃ t, exec .hash abcde = .next t ∧ abcde.status.fault = false ∧ t.status.fault = false :=
  ⟨_, rfl, by decide, by decide⟩

theorem test_witness_SrstFrame : ∃ t, exec .srst faulted = .next t := ⟨_, rfl⟩

theorem test_witness_AcceptDropsOrRuns :
    (faulted.status.busy = false ∧ faulted.status.fault = true ∧
      (7#32 : Word) ≠ 0x0000000E#32 ∧ (7#32 : Word) ≠ 0x0000000F#32) ∧
    (ready.status.busy = false ∧ ready.status.fault = false ∧ decode 2#32 = .ok .mix) ∧
    decode 6#32 = .error .unassignedOpcode :=
  ⟨by decide, ⟨by decide, by decide, rfl⟩, rfl⟩

theorem test_witness_FaultActionRecordsFirst :
    ready.status.fault = false ∧ faulted.status.fault = true := by decide

/-- A state for each cause, and for HASH's success; 0x00 and 0x3F are the ends of BAD_REG's offsets. -/
theorem test_witness_FaultCausesAndInfo :
    (ready.status.busy = false ∧ ready.status.fault = false ∧
      decode 6#32 = .error .unassignedOpcode) ∧
    ((0x80000000#32 : Word).getLsbD 31 = true ∧ (0x7FFFFFFF#32 : Word).getLsbD 31 = false) ∧
    (∃ t, seqStep shortened = .next t ∧
      shortened.status.fault = false ∧ t.status.fault = true) ∧
    (0x00#6 ∉ [0x08#6, 0x0C#6, 0x10#6, 0x14#6, 0x18#6, 0x1C#6, 0x20#6, 0x28#6] ∧
      0x3F#6 ∉ [0x08#6, 0x0C#6, 0x10#6, 0x14#6, 0x18#6, 0x1C#6, 0x20#6, 0x28#6]) ∧
    ∃ t, exec .mix ready = .next t ∧ ready.status.fault = false :=
  ⟨⟨by decide, by decide, rfl⟩, by decide, ⟨_, rfl, by decide, by decide⟩, by decide,
    ⟨_, rfl, by decide⟩⟩

theorem test_witness_FaultsArePrecise :
    (ready.Inv ∧ ready.status.busy = false ∧ ready.status.fault = false ∧
      ∃ t, hostWrite 0x08#6 6#32 ready = .next t ∧ t.status.fault = true) ∧
    ∃ t, seqStep shortened = .next t ∧
      shortened.status.fault = false ∧ t.status.fault = true :=
  ⟨⟨test_ready_inv, by decide, by decide, _, rfl, by decide⟩, _, rfl, by decide, by decide⟩

theorem test_witness_FaultRecordStaysUntilCleared :
    faulted.Inv ∧ faulted.status.fault = true ∧ ∃ t, step faulted = .next t :=
  ⟨test_faulted_inv, by decide, _, rfl⟩

/-- Offsets at the ends of R58's unmapped and misaligned ones, and a read on HOST's turn, BUSY = 1. -/
theorem test_witness_HostReadsAreIdempotent :
    0x30 ≤ (0x30#6 : Offset).toNat ∧ (0x01#6 : Offset).toNat % 4 ≠ 0 ∧
    (0x2F#6 : Offset).toNat % 4 ≠ 0 ∧
    (stalling [.read 0x04#6]).host = .read 0x04#6 :: [] ∧
    (stalling [.read 0x04#6]).held = none ∧ (stalling [.read 0x04#6]).turns = .host :: [] := by
  decide

theorem test_witness_StatusLayout : 8 ≤ 8 ∧ 8 ≤ 31 := by decide

/-- Offsets at the ends of R59's refused ones, a legal word, and a write on HOST's turn. -/
theorem test_witness_HostWritesRegisters :
    ready.status.busy = false ∧
    0x00#6 ∉ [0x08#6, 0x0C#6, 0x10#6, 0x14#6, 0x18#6, 0x1C#6, 0x20#6, 0x28#6] ∧
    0x24#6 ∉ [0x08#6, 0x0C#6, 0x10#6, 0x14#6, 0x18#6, 0x1C#6, 0x20#6, 0x28#6] ∧
    0x3F#6 ∉ [0x08#6, 0x0C#6, 0x10#6, 0x14#6, 0x18#6, 0x1C#6, 0x20#6, 0x28#6] ∧
    decodeTableWord 32 0x103 = some (.tail 1) ∧ ready.status.fault = false ∧
    (issuing [.host]).status.busy = false ∧ (issuing [.host]).held = none ∧
    (issuing [.host]).turns = .host :: [] ∧
    (issuing [.host]).host = .write 0x08#6 0x103#32 :: [] := by decide

theorem test_witness_InterruptLevel : ready.Inv := test_ready_inv

/-- A block step; HOST's turn in a state whose final step is due; and a final step that does not
complete, its only read answering err. -/
theorem test_witness_WorkingAccumulatorIsHidden :
    (∃ t, step running = .next t ∧ (running.FinalStepNext → t.status.done = false)) ∧
    (∃ t, step { lastStep with turns := [.host] } = .next t ∧
      ({ lastStep with turns := [.host] }.FinalStepNext → t.status.done = false)) ∧
    ∃ t, step { lastStep with buf := { lastStep.buf with bytes := 4 } } = .next t ∧
      ({ lastStep with buf := { lastStep.buf with bytes := 4 } }.FinalStepNext →
        t.status.done = false) :=
  ⟨⟨_, rfl, fun _ => by decide⟩, ⟨_, rfl, fun _ => by decide⟩, _, rfl, fun _ => by decide⟩

/-- A state for each of the five clauses. -/
theorem test_witness_WritesStallWhileBusy :
    ((stalling [.write 0x0C#6 7#32]).status.busy = true ∧
      (stalling [.write 0x0C#6 7#32]).held = none ∧
      (stalling [.write 0x0C#6 7#32]).turns = .host :: [] ∧
      (stalling [.write 0x0C#6 7#32]).host = .write 0x0C#6 7#32 :: []) ∧
    ({ stalling [] with held := due.held }.status.busy = true ∧
      { stalling [] with held := due.held }.held = some ⟨0x0C#6, 7#32⟩ ∧
      { stalling [] with held := due.held }.turns = .host :: []) ∧
    (due.status.busy = false ∧ due.held = some ⟨0x0C#6, 7#32⟩ ∧ due.Undisturbed) ∧
    ((stalling [.read 0x04#6]).status.busy = true ∧ (stalling [.read 0x04#6]).held = none ∧
      (stalling [.read 0x04#6]).turns = .host :: [] ∧
      (stalling [.read 0x04#6]).host = .read 0x04#6 :: []) ∧
    { due with turns := [.reset] }.turns = .reset :: [] :=
  ⟨by decide, by decide, ⟨by decide, by decide, test_quiet _ rfl⟩, by decide, by decide⟩

/-- A step that keeps BUSY = 1, so that DONE = 0 too. -/
theorem test_witness_OperandsFixedWhileBusy :
    running.Inv ∧ running.status.busy = true ∧ (∀ ts, running.turns ≠ .reset :: ts) ∧
    ∃ t, step running = .next t ∧ t.status.busy = true ∧ t.status.done = false :=
  ⟨test_running_inv, by decide, fun _ h => (nomatch h), _, rfl, by decide, by decide⟩

/-- A state for each of the three clauses. -/
theorem test_witness_StepRunsDecodedCommand :
    decode 0x00000103#32 = .ok (.tail 1) ∧
    ((issuing [.host]).status.busy = false ∧ (issuing [.host]).held = none ∧
      (issuing [.host]).turns = .host :: [] ∧
      (issuing [.host]).host = .write 0x08#6 0x103#32 :: []) ∧
    ((issuing []).held = none ∧ (issuing []).turns = [] ∧ (issuing []).seq.phase = .idle ∧
      (issuing []).host = .write 0x08#6 0x103#32 :: []) ∧
    ({ ready with held := some ⟨0x08#6, 0x103#32⟩ }.status.busy = false ∧
      { ready with held := some ⟨0x08#6, 0x103#32⟩ }.Undisturbed) :=
  ⟨rfl, by decide, by decide, by decide, test_quiet _ rfl⟩

theorem test_witness_StepKeepsInvariant : running.Inv ∧ ∃ t, step running = .next t :=
  ⟨test_running_inv, _, rfl⟩

theorem test_witness_StepNeverStops : lastStep.Inv := test_lastStep_inv

theorem test_witness_ResetValues : { running with turns := [.reset] }.turns = .reset :: [] := rfl

theorem test_witness_BlockStepMixesOneBlock :
    running.seq.phase = .blk ∧ running.seq.idx.toNat < running.seq.nb.toNat ∧
    running.stale = [] ∧ running.offset.toNat + 4 * running.seq.idx.toNat + 3 < 2 ^ 32 ∧
    running.buf.answer 0 = .ok 0x61#8 ∧ running.buf.answer 1 = .ok 0x62#8 ∧
    running.buf.answer 2 = .ok 0x63#8 ∧ running.buf.answer 3 = .ok 0x64#8 := by decide

theorem test_witness_FinalStepCompletes :
    lastStep.seq.phase = .blk ∧ lastStep.seq.idx = lastStep.seq.nb ∧ lastStep.stale = [] ∧
    4 = lastStep.offset.toNat + 4 * lastStep.seq.nb.toNat ∧ 4 + [0x65#8].length ≤ 2 ^ 32 ∧
    [0x65#8].length = lastStep.length.toNat % 4 ∧ lastStep.buf.answer (4 + 0) = .ok 0x65#8 := by
  decide

/-- A block step whose third read fails, and a final step whose only read fails. -/
theorem test_witness_BufErrorEndsHash :
    (shortened.status.fault = false ∧ shortened.stale = [] ∧ shortened.seq.phase = .blk ∧
      shortened.seq.idx.toNat < shortened.seq.nb.toNat ∧
      0 = shortened.offset.toNat + 4 * shortened.seq.idx.toNat ∧
      shortened.buf.answer (0 + 0) = .ok 0x61#8 ∧ shortened.buf.answer (0 + 1) = .ok 0x62#8 ∧
      shortened.buf.answer (0 + 2) = .err) ∧
    (lastStep.status.fault = false ∧ lastStep.stale = [] ∧ lastStep.seq.phase = .blk ∧
      lastStep.seq.idx = lastStep.seq.nb ∧
      4 = lastStep.offset.toNat + 4 * lastStep.seq.nb.toNat ∧ 0 < lastStep.length.toNat % 4 ∧
      { lastStep.buf with bytes := 4 }.answer (4 + 0) = .err) := by decide

theorem test_witness_SeqStepFrame :
    (∃ t, seqStep running = .next t ∧ t.status.done = false ∧
      running.seq.idx.toNat < running.seq.nb.toNat ∧ t.status.fault = running.status.fault ∧
      running.status.fault = false) ∧
    ready.seq.phase = .idle :=
  ⟨⟨_, rfl, by decide, by decide, by decide, by decide⟩, rfl⟩

/-- The block's last read withheld, and the tail's only read withheld. -/
theorem test_witness_WithheldAnswerHangs :
    ((muted running [3]).seq.phase = .blk ∧ (muted running [3]).stale = [] ∧
      (muted running [3]).seq.idx.toNat < (muted running [3]).seq.nb.toNat ∧
      0 = (muted running [3]).offset.toNat + 4 * (muted running [3]).seq.idx.toNat ∧
      0 + 3 < 2 ^ 32 ∧
      (muted running [3]).buf.answer (0 + 0) = .ok 0x61#8 ∧
      (muted running [3]).buf.answer (0 + 1) = .ok 0x62#8 ∧
      (muted running [3]).buf.answer (0 + 2) = .ok 0x63#8 ∧
      (muted running [3]).buf.answer (0 + 3) = .withheld) ∧
    ((muted lastStep [4]).seq.phase = .blk ∧ (muted lastStep [4]).stale = [] ∧
      (muted lastStep [4]).seq.idx = (muted lastStep [4]).seq.nb ∧
      4 = (muted lastStep [4]).offset.toNat + 4 * (muted lastStep [4]).seq.nb.toNat ∧
      0 < (muted lastStep [4]).length.toNat % 4 ∧
      (muted lastStep [4]).buf.answer (4 + 0) = .withheld) := by decide

/-- One step with BUSY = 1, then the step that ends the HASH. -/
theorem test_witness_HashComputesMurmur3 :
    running.Inv ∧ running.status.busy = true ∧ running.seq.idx = 0#32 ∧
    running.seq.h = running.seed ∧ running.Backed letters ∧ running.Undisturbed ∧
    (∀ j u, j ≤ 1 → runFor j running = .next u → u.status.busy = true) ∧
    ∃ t, runFor 2 running = .next t ∧ t.status.busy = false := by
  refine ⟨test_running_inv, by decide, by decide, by decide, test_running_backed,
    test_quiet _ rfl, fun j u hj h => ?_, _, rfl, by decide⟩
  have h2 : j = 0 ∨ j = 1 := by omega
  rcases h2 with rfl | rfl <;> cases h <;> decide

theorem test_witness_HashEndsInBlockCountSteps :
    running.Inv ∧ running.status.busy = true ∧ running.seq.idx = 0#32 ∧ running.turns = [] ∧
    running.Backed letters ∧ running.Answering :=
  ⟨test_running_inv, by decide, by decide, by decide, test_running_backed, test_running_answering⟩

/-- The same run completes; with two bytes backed, its first step ends it with a fault. -/
theorem test_witness_ReadsAscendOnce :
    (running.Inv ∧ running.status.busy = true ∧ running.seq.idx = 0#32 ∧
      (∀ j u, j ≤ 1 → runFor j running = .next u → u.status.busy = true) ∧
      ∃ t, runFor 2 running = .next t ∧ t.status.busy = false ∧ t.status.done = true) ∧
    shortened.Inv ∧ shortened.status.busy = true ∧ shortened.seq.idx = 0#32 ∧
      (∀ j u, j ≤ 0 → runFor j shortened = .next u → u.status.busy = true) ∧
      ∃ t, runFor 1 shortened = .next t ∧ t.status.busy = false ∧ t.status.fault = true := by
  obtain ⟨h1, h2, h3, -, -, -, h4, -⟩ := test_witness_HashComputesMurmur3
  refine ⟨⟨h1, h2, h3, h4, _, rfl, by decide, by decide⟩, test_shortened_inv, by decide, by decide,
    fun j u hj h => ?_, _, rfl, by decide, by decide⟩
  obtain rfl : j = 0 := by omega
  cases h
  decide

theorem test_witness_ReadsStayInBounds :
    running.Inv ∧ ∃ t, step running = .next t ∧ t.bufReads = running.bufReads ++ [0, 1, 2, 3] :=
  ⟨test_running_inv, _, rfl, by decide⟩

theorem test_witness_BufferIsNeverWritten :
    (∀ a v ts, running.turns ≠ .buffer a v :: ts) ∧ ∃ t, step running = .next t :=
  ⟨fun _ _ _ h => (nomatch h), _, rfl⟩

theorem test_witness_ReadIsOldOrNew :
    staleAt running 0 = [] ∧ running.seq.phase = .blk ∧
    staleAt (changeBuffer 0#32 .err running) 0 = [.ok 0x61#8] := by decide

theorem test_witness_BufferChangeIsLocal :
    Memory.wf running.buf.mem ∧ indicesWf running.buf.silent ∧ 1 ≠ (0#32 : Word).toNat := by decide

theorem test_witness_ZeroLengthHash :
    ready.status.busy = false ∧ ready.status.fault = false ∧ ready.length = 0#32 ∧
    ready.offset.toNat < 2 ^ 31 ∧ ready.offset.toNat ≤ ready.bufsize.toNat ∧ ready.turns = [] := by
  decide

/-- `ready` with the accesses of `init` and one `mix` as HOST's. -/
theorem test_witness_MixSequenceIsBlockLoop :
    ∃ ops, assembleAll (.init :: mixStmts letters 0 1) = some ops ∧
      ops = [.write 0x08#6 1#32, .write 0x0C#6 0x64636261#32, .write 0x08#6 2#32] ∧
      { ready with host := ops }.Inv ∧ ready.status.busy = false ∧ ready.status.fault = false ∧
      ready.held = none ∧ ready.turns = [] :=
  ⟨[.write 0x08#6 1#32, .write 0x0C#6 0x64636261#32, .write 0x08#6 2#32], by decide, rfl,
    ⟨by decide, by decide, by decide, by decide, by decide, fun h => absurd h (by decide),
      by decide, by decide⟩, by decide, by decide, by decide, by decide⟩

theorem test_witness_PrimitiveSequenceIsMurmur3 :
    ready.Inv ∧ ready.status.busy = false ∧ ready.status.fault = false ∧ ready.held = none ∧
    ready.turns = [] ∧ 5 < 2 ^ 31 :=
  ⟨test_ready_inv, by decide, by decide, by decide, by decide, by decide⟩

/-- The last immediate and count, and `wait` on HOST's turn while a HASH runs. -/
theorem test_witness_PseudoInstructionsExpand :
    0xFFFFFFFF < 2 ^ 32 ∧ 3 < 4 ∧ (stalling [.wait]).host = .wait :: [] ∧
    (stalling [.wait]).held = none ∧ (stalling [.wait]).turns = .host :: [] := by decide

/-- The last immediate that fits and the first that does not, the window's last offset, the first count
refused. -/
theorem test_witness_AssemblerChecksImmediates :
    0xFFFFFFFF < 2 ^ 32 ∧ 2 ^ 32 ≤ 0x100000000 ∧ 63 < 64 ∧ 4 ≤ 4 := by decide

theorem test_witness_InstancesAreIndependent :
    (∃ qs, stepInstance 1 [⟨0, 0, running⟩, ⟨64, 0, ready⟩] = some qs) ∧ 0 ≠ 1 ∧
    windowOffset ⟨64, 0, ready⟩ 127 = some 0x3F#6 ∧ windowOffset ⟨64, 0, ready⟩ 128 = none :=
  ⟨⟨_, rfl⟩, by decide, by decide, by decide⟩

end Sys2Proof.Tests
end

section
/-! SUPPORT. The family of memory and register access: what HOST's reads and writes do (R58, R59), that
no step but the platform's writes the buffer (R52), and the order in which a HASH reads (R63). -/

namespace Sys2Proof.Machine

/-! ### HOST's turn -/

/-- On HOST's listed turn, with no write held, HOST issues its next access. -/
theorem step_host_turn {s : State} {ts : List Turn} (hh : s.held = none)
    (ht : s.turns = .host :: ts) : step s = issue { s with turns := ts } := by
  unfold step machineStep
  rw [ht]
  simp only [heldFirst_none hh]
  unfold hostStep
  simp only [hh]

/-- No register stands at a misaligned offset or at 0x30 and above (R20, R57). -/
theorem regAt_eq_none :
    ∀ off : Offset, off.toNat % 4 ≠ 0 ∨ 0x30 ≤ off.toNat → regAt off = none := by
  decide

/-- Settles O28: each offset's value by the register decode, and the read step by HOST's turn. -/
theorem hostReadsAreIdempotent : Obligations.HostReadsAreIdempotent := by
  refine ⟨fun s => ⟨rfl, rfl, rfl, rfl, rfl, rfl, rfl, rfl, rfl, rfl, rfl, rfl⟩,
    fun off s ho => ?_, fun off rest ts s hq hh ht => ?_⟩
  · rw [hostReadValue, regAt_eq_none off ho]
  · rw [step_host_turn hh ht]
    unfold issue
    simp only [hq, hostRead]
    rw [hostReadValue_agents off s rest s.held s.readData ts]

/-! ### HOST's writes -/

theorem bitWord_getLsbD (b : Bool) (j : Nat) : (bitWord b).getLsbD j = (decide (j = 0) && b) := by
  cases b <;> simp [bitWord, BitVec.getLsbD_one]

/-- INTEN keeps bits [1:0] of the word written (R38, R59). -/
theorem intenOfWord_word (w : Word) : (intenOfWord w).word = w &&& 3#32 := by
  apply BitVec.eq_of_getLsbD_eq
  intro j hj
  match j with
  | 0 => simp [-BitVec.getLsbD_eq_getElem, IntEn.word, intenOfWord, bitWord_getLsbD]
  | 1 => simp [-BitVec.getLsbD_eq_getElem, IntEn.word, intenOfWord, bitWord_getLsbD]
  | j + 2 =>
    have h3 : (3#32).getLsbD (j + 2) = false := by
      rw [BitVec.getLsbD_ofNat, Nat.testBit_lt_two_pow (by have := j.one_le_two_pow; rw [pow_add]; omega), Bool.and_false]
    simp [IntEn.word, bitWord_getLsbD, h3]

/-- Outside CMD's offset and the writable ones stand only read-only registers, or none (R20, R59). -/
theorem regAt_readOnly : ∀ off : Offset,
    off ∉ [0x08#6, 0x0C#6, 0x10#6, 0x14#6, 0x18#6, 0x1C#6, 0x20#6, 0x28#6] →
    regAt off = none ∨ regAt off = some .id ∨ regAt off = some .status ∨
      regAt off = some .result ∨ regAt off = some .finfo := by
  decide

/-- A write at a read-only, unmapped or misaligned offset is refused with BAD_REG (R59). -/
theorem hostWrite_refused {off : Offset} (w : Word) (s : State)
    (h : off ∉ [0x08#6, 0x0C#6, 0x10#6, 0x14#6, 0x18#6, 0x1C#6, 0x20#6, 0x28#6]) :
    hostWrite off w s = .next (raiseFault .badReg (BitVec.ofNat 32 off.toNat) s) := by
  rw [BitVec.ofNat_toNat]
  unfold hostWrite
  rcases regAt_readOnly off h with hr | hr | hr | hr | hr <;> rw [hr] <;> rfl

theorem accepts_of_not_fault {s : State} (hf : s.status.fault = false) (i : Instr) :
    accepts s i = true := by
  cases i <;> simp [accepts, hf]

/-- The accept step clears DONE itself, so it does not see whether DONE was clear before (R211). -/
theorem acceptedState_clearDone {s : State} (hf : s.status.fault = false) (i : Instr) :
    acceptedState i (clearDone s) = acceptedState i s := by
  have hf' : (clearDone s).status.fault = false := hf
  unfold acceptedState
  rw [if_pos (accepts_of_not_fault hf' i), if_pos (accepts_of_not_fault hf i)]
  rfl

/-- A legal word written to CMD runs its command with DONE cleared (R211). -/
theorem hostWrite_command {w : Word} {i : Instr} {s : State} (hd : decode w = .ok i)
    (hf : s.status.fault = false) : hostWrite 0x08#6 w s = exec i (clearDone s) := by
  have hw := wellFormed_of_decode hd
  calc hostWrite 0x08#6 w s = acceptWord w s := rfl
    _ = exec i s := by rw [acceptWord, hd]
    _ = exec i (clearDone s) := by rw [exec_eq i _ hw, exec_eq i _ hw, acceptedState_clearDone hf]

/-- While BUSY = 1 the write HOST issues is held, whatever its offset (R250). -/
theorem step_write_held {s : State} {off : Offset} {w : Word} {rest : List HostOp}
    {ts : List Turn} (hb : s.status.busy = true) (hh : s.held = none)
    (ht : s.turns = .host :: ts) (hq : s.host = .write off w :: rest) :
    step s = .next { s with host := rest, turns := ts, held := some ⟨off, w⟩ } := by
  rw [step_host_turn hh ht]
  unfold issue
  simp [hq, hb]

/-- Settles O30: the writable offsets by the register decode, the others by the lemmas on refused
writes, commands and held writes. -/
theorem hostWritesRegisters : Obligations.HostWritesRegisters := by
  intro w s _
  exact ⟨rfl, rfl, rfl, rfl, rfl, rfl, ⟨_, rfl, intenOfWord_word w, rfl⟩,
    fun off ho => hostWrite_refused w s ho, fun i hd hf => hostWrite_command hd hf,
    fun off rest ts hh ht hq => step_write_held rfl hh ht hq⟩

/-! ### What a step leaves of the buffer -/

@[simp] theorem hashBody_buf (s : State) : (hashBody s).buf = s.buf := by
  rcases hashBody_cases s with ⟨-, e⟩ | ⟨-, -, e⟩ | ⟨-, -, -, e⟩ | ⟨-, -, -, e⟩ <;> rw [e] <;> rfl

/-- No command writes the buffer space. -/
@[simp] theorem acceptedState_buf (i : Instr) (s : State) : (acceptedState i s).buf = s.buf := by
  unfold acceptedState
  split
  · cases i <;> simp
  · rfl

theorem WriteTo.buf_eq {off : Offset} {w : Word} {s t : State} (h : WriteTo off w s t) :
    t.buf = s.buf := by
  cases h with
  | command i _ _ _ e => rw [e, acceptedState_buf]
  | dropped _ _ e => rw [e]
  | illegal _ _ _ e => rw [e]; rfl
  | register _ _ _ _ _ _ _ e => rw [e]
  | refused e => rw [e]; rfl

theorem SeqTo.buf_eq {s t : State} (h : SeqTo s t) : t.buf = s.buf := by
  cases h with
  | idle _ e => rw [e]
  | hang _ _ _ _ e => rw [e]
  | error _ _ _ _ _ _ e => rw [e]; rfl
  | block _ _ _ _ _ e => rw [e]; rfl
  | final _ _ _ _ _ e => rw [e]; rfl

/-- Settles O49, by the cases of a step. -/
theorem bufferIsNeverWritten : Obligations.BufferIsNeverWritten := by
  intro s t hnb hstep
  cases step_cases hstep with
  | reset ts _ e => rw [e]; rfl
  | buffer a v ts hts _ => exact absurd hts (hnb a v ts)
  | write wr q hd ts _ _ hw => exact hw.buf_eq
  | host q hd rd ts e => rw [e]
  | seq ts hseq => exact hseq.buf_eq

/-! ### The order of a HASH's reads -/

/-- Where a HASH that began in state `s` stands in state `u`, while it runs: the operands are those of
the start, no fault is recorded, and the reads made are those of the blocks mixed so far (R63). -/
structure HashProgress (s u : State) : Prop where
  running : u.seq.phase = .blk
  busy : u.status.busy = true
  no_fault : u.status.fault = false
  offset_eq : u.offset = s.offset
  length_eq : u.length = s.length
  blocks : u.seq.nb = blockCount s.length
  index : u.seq.idx.toNat ≤ u.seq.nb.toNat
  reads : u.bufReads = s.bufReads ++ List.range' s.offset.toNat (4 * u.seq.idx.toNat)

theorem HashProgress.start {s : State} (hinv : s.Inv) (hb : s.status.busy = true)
    (h0 : s.seq.idx = 0#32) : HashProgress s s where
  running := hinv.busy_iff_blk.mp hb
  busy := hb
  no_fault := (hinv.busy_clear hb).1
  offset_eq := rfl
  length_eq := rfl
  blocks := (hinv.range hb).blocks
  index := (hinv.range hb).index
  reads := by simp [h0]

/-- Changes of what HOST, the schedule and the platform hold do not touch the progress. -/
theorem HashProgress.congr {s u v : State} (h : HashProgress s u) (hseq : v.seq = u.seq)
    (hst : v.status = u.status) (ho : v.offset = u.offset) (hl : v.length = u.length)
    (hr : v.bufReads = u.bufReads) : HashProgress s v := by
  obtain ⟨h1, h2, h3, h4, h5, h6, h7, h8⟩ := h
  constructor <;> simp only [hseq, hst, ho, hl, hr] <;> assumption

theorem HashProgress.nb_toNat {s u : State} (h : HashProgress s u) :
    u.seq.nb.toNat = s.length.toNat / 4 := by
  rw [h.blocks, blockCount_toNat]

/-- The next reads go on where the reads made so far end, and stay in the range of the HASH. -/
theorem HashProgress.nextReads_bounds {s u : State} (h : HashProgress s u) :
    (nextReads u).1 = s.offset.toNat + 4 * u.seq.idx.toNat ∧
      4 * u.seq.idx.toNat + (nextReads u).2 ≤ s.length.toNat := by
  have hnb := h.nb_toNat
  have hle := h.index
  unfold nextReads
  split
  · exact ⟨by rw [h.offset_eq], by omega⟩
  · rw [h.offset_eq, h.length_eq, tailCount_eq]
    exact ⟨by omega, by omega⟩

/-- The reads made after `m` more from where the last ended. -/
theorem HashProgress.reads_append {s u : State} (h : HashProgress s u) (m : Nat) :
    u.bufReads ++ List.range' (s.offset.toNat + 4 * u.seq.idx.toNat) m =
      s.bufReads ++ List.range' s.offset.toNat (4 * u.seq.idx.toNat + m) := by
  rw [h.reads, List.append_assoc, List.range'_append_1]

/-- One more block is mixed. -/
theorem HashProgress.afterBlock {s u : State} (h : HashProgress s u)
    (hi : u.seq.idx.toNat < u.seq.nb.toNat) (bs : List Byte) (d : Nat) :
    HashProgress s
      (mixBlock bs (afterReads u (u.offset.toNat + 4 * u.seq.idx.toNat) 4 d)) := by
  have hidx : (u.seq.idx + 1#32).toNat = u.seq.idx.toNat + 1 := by
    have := u.seq.nb.isLt
    simp [BitVec.toNat_add]
    omega
  exact {
    running := h.running
    busy := h.busy
    no_fault := h.no_fault
    offset_eq := h.offset_eq
    length_eq := h.length_eq
    blocks := h.blocks
    index := by
      show (u.seq.idx + 1#32).toNat ≤ u.seq.nb.toNat
      omega
    reads := by
      show u.bufReads ++ List.range' (u.offset.toNat + 4 * u.seq.idx.toNat) 4 =
        s.bufReads ++ List.range' s.offset.toNat (4 * (u.seq.idx + 1#32).toNat)
      rw [h.offset_eq, h.reads_append, hidx, Nat.mul_succ] }

/-- What R63 says of the state `t` a HASH that began in `s` ends in. -/
def ReadsInOrder (s t : State) : Prop :=
  (t.status.done = true →
    t.bufReads = s.bufReads ++ List.range' s.offset.toNat s.length.toNat) ∧
  (t.status.fault = true → ∃ n, n < s.length.toNat ∧
    t.finfo = BitVec.ofNat 32 (s.offset.toNat + n) ∧
    t.bufReads = s.bufReads ++ List.range' s.offset.toNat (n + 1))

/-- BUF_ERROR at the `j`-th of the next reads: the reads end with the index recorded (R146). -/
theorem HashProgress.readsInOrder_error {s u : State} (h : HashProgress s u) {j : Nat} (d : Nat)
    (hj : j < (nextReads u).2) :
    ReadsInOrder s (raiseFault .bufError (BitVec.ofNat 32 ((nextReads u).1 + j))
      (afterReads u (nextReads u).1 (j + 1) d)) := by
  obtain ⟨hfirst, hle⟩ := h.nextReads_bounds
  refine ⟨fun hd => (nomatch hd), fun _ => ⟨4 * u.seq.idx.toNat + j, by omega, ?_, ?_⟩⟩
  · simp [afterReads, h.no_fault, hfirst, Nat.add_assoc]
  · simp only [raiseFault_bufReads, afterReads, hfirst, h.reads_append, Nat.add_assoc]

/-- The final step's reads are the last ones of the range (R144). -/
theorem HashProgress.readsInOrder_final {s u : State} (h : HashProgress s u)
    (hi : u.seq.idx = u.seq.nb) (bs : List Byte) (d : Nat) :
    ReadsInOrder s (finishHash bs
      (afterReads u (u.offset.toNat + 4 * u.seq.nb.toNat) (tailCount u.length) d)) := by
  have hnb := h.nb_toNat
  have hlen : 4 * u.seq.idx.toNat + s.length.toNat % 4 = s.length.toNat := by rw [hi]; omega
  refine ⟨fun _ => ?_, fun hf => ?_⟩
  · show u.bufReads ++ List.range' (u.offset.toNat + 4 * u.seq.nb.toNat) (tailCount u.length) = _
    rw [← hi, h.offset_eq, h.length_eq, h.reads_append, tailCount_eq, hlen]
  · exact absurd (h.no_fault.symm.trans hf) (by decide)

/-- SEQ's step of a running HASH carries the progress on or ends the HASH. -/
theorem HashProgress.afterSeq {s u v : State} (h : HashProgress s u) (hv : SeqTo u v) :
    HashProgress s v ∨ v.status.busy = false ∧ ReadsInOrder s v := by
  cases hv with
  | idle hp _ => exact absurd (h.running.symm.trans hp) (by decide)
  | hang _ _ _ _ e => exact .inl (e ▸ h)
  | error _ j d hj _ _ e => exact .inr (e ▸ ⟨rfl, h.readsInOrder_error d hj⟩)
  | block _ hi bs d _ e => exact .inl (e ▸ h.afterBlock hi bs d)
  | final _ hi bs d _ e => exact .inr (e ▸ ⟨rfl, h.readsInOrder_final hi bs d⟩)

/-- Any step of the whole from a running HASH carries the progress on or ends the HASH: a reset with
neither DONE nor FAULT set, else SEQ's step. -/
theorem HashProgress.afterStep {s u v : State} (h : HashProgress s u) (hstep : step u = .next v) :
    HashProgress s v ∨ v.status.busy = false ∧ ReadsInOrder s v := by
  cases step_cases hstep with
  | reset ts _ e => exact .inr (e ▸ ⟨rfl, fun hd => (nomatch hd), fun hf => (nomatch hf)⟩)
  | buffer a x ts _ e =>
    subst e
    exact .inl (h.congr rfl rfl rfl rfl rfl)
  | write _ _ _ _ hb _ _ => exact absurd (h.busy.symm.trans hb) (by decide)
  | host q hd rd ts e =>
    subst e
    exact .inl (h.congr rfl rfl rfl rfl rfl)
  | seq ts hv =>
    have h' : HashProgress s { u with turns := ts } := h.congr rfl rfl rfl rfl rfl
    exact h'.afterSeq hv

/-- A run of a HASH keeps the progress up to its last step, by induction on the steps before it. -/
theorem HashProgress.readsInOrder_run {s u t : State} {k : Nat} (h : HashProgress s u)
    (hbusy : ∀ j v, j ≤ k → runFor j u = .next v → v.status.busy = true)
    (hrun : runFor (k + 1) u = .next t) (ht : t.status.busy = false) : ReadsInOrder s t := by
  induction k generalizing u with
  | zero =>
    obtain ⟨v, hv, hr⟩ := step_of_runFor_succ hrun
    obtain rfl : v = t := by cases hr; rfl
    rcases h.afterStep hv with hp | ⟨-, ho⟩
    · exact absurd (hp.busy.symm.trans ht) (by decide)
    · exact ho
  | succ k ih =>
    obtain ⟨v, hv, hr⟩ := step_of_runFor_succ hrun
    have hvb : v.status.busy = true := hbusy 1 v (by omega) (by rw [runFor_succ hv]; rfl)
    rcases h.afterStep hv with hp | ⟨hb, -⟩
    · exact ih hp (fun j w hj hw => hbusy (j + 1) w (by omega) (by rw [runFor_succ hv, hw])) hr
    · exact absurd (hvb.symm.trans hb) (by decide)

/-- Settles O47: the progress holds where the HASH begins, and the run that ends it keeps it. -/
theorem readsAscendOnce : Obligations.ReadsAscendOnce := by
  intro s t k hinv hb h0 hbusy hrun ht
  exact (HashProgress.start hinv hb h0).readsInOrder_run hbusy hrun ht

end Sys2Proof.Machine
end

section
/-! SUPPORT. The family of encoding: the fields of a command word (R70), which words decode and to what
(R73, R74), and what an illegal word does when it is accepted (R75). -/

namespace Sys2Proof

/-! ### The fields of a word (R70) -/

theorem opcField_toNat (w : Word) : (opcField w).toNat = w.toNat % 256 := by
  simp [opcField]

theorem countField_toNat (w : Word) : (countField w).toNat = w.toNat / 256 % 4 := by
  simp [countField, Nat.shiftRight_eq_div_pow]

theorem reservedField_toNat (w : Word) : (reservedField w).toNat = w.toNat / 1024 := by
  have := w.isLt
  rw [reservedField, BitVec.extractLsb'_toNat, Nat.shiftRight_eq_div_pow]
  omega

/-- RSV, N and OPC are the whole word. -/
theorem word_eq_iff_fields (v w : Word) : v = w ↔
    reservedField v = reservedField w ∧ countField v = countField w ∧ opcField v = opcField w := by
  simp only [← BitVec.toNat_inj, opcField_toNat, countField_toNat, reservedField_toNat]
  omega

@[simp] theorem reservedField_commandWord (n : Nat) (opc : BitVec 8) :
    reservedField (commandWord n opc) = 0#22 := by
  rw [reservedField, commandWord, BitVec.extractLsb'_append_eq_of_le (by decide)]
  exact BitVec.extractLsb'_append_eq_left

@[simp] theorem countField_commandWord (n : Nat) (opc : BitVec 8) :
    countField (commandWord n opc) = BitVec.ofNat 2 n := by
  rw [countField, commandWord, BitVec.extractLsb'_append_eq_of_le (by decide)]
  exact BitVec.extractLsb'_append_eq_right

@[simp] theorem opcField_commandWord (n : Nat) (opc : BitVec 8) :
    opcField (commandWord n opc) = opc :=
  BitVec.extractLsb'_append_eq_right

theorem eq_commandWord_iff (w : Word) (n : Nat) (opc : BitVec 8) : w = commandWord n opc ↔
    reservedField w = 0#22 ∧ countField w = BitVec.ofNat 2 n ∧ opcField w = opc := by
  simp [word_eq_iff_fields w]

/-- R73's mask for TAIL keeps RSV and OPC and clears N, so the match word asks nothing of N. -/
theorem tailMask_eq_iff (w : Word) :
    w &&& 0xFFFFFCFF#32 = 0x00000003#32 ↔ reservedField w = 0#22 ∧ opcField w = 0x03#8 := by
  have hr : reservedField (w &&& 0xFFFFFCFF#32) = reservedField w := by
    rw [reservedField, BitVec.extractLsb'_and]
    exact BitVec.and_allOnes
  have hn : countField (w &&& 0xFFFFFCFF#32) = 0#2 := by
    rw [countField, BitVec.extractLsb'_and]
    exact BitVec.and_zero
  have ho : opcField (w &&& 0xFFFFFCFF#32) = opcField w := by
    rw [opcField, BitVec.extractLsb'_and]
    exact BitVec.and_allOnes
  have hmatch : 0x00000003#32 = commandWord 0 0x03#8 := by decide
  rw [hmatch, eq_commandWord_iff, hr, hn, ho]
  simp

/-! ### Which words decode, and to what (R73, R74) -/

/-- R73: the assigned values of OPC but TAIL's, each with its command. -/
def plainOpcodes : List (BitVec 8 × Instr) :=
  [(0x00#8, .nop), (0x01#8, .init), (0x02#8, .mix), (0x04#8, .final), (0x05#8, .hash),
    (0x0E#8, .clrf), (0x0F#8, .srst)]

theorem decodeOpcode_of_mem : ∀ p ∈ plainOpcodes, decodeOpcode p.1 = .ok p.2 := by
  decide

theorem decodeOpcode_eq_ok_iff (opc : BitVec 8) (i : Instr) :
    decodeOpcode opc = .ok i ↔ (opc, i) ∈ plainOpcodes := by
  refine ⟨fun h => ?_, decodeOpcode_of_mem (opc, i)⟩
  unfold decodeOpcode at h
  split_ifs at h <;> cases h <;> subst opc <;> decide

/-- The values of OPC that stand for no command but TAIL: TAIL's own and the unassigned ones (R75). -/
theorem decodeOpcode_eq_error_iff (opc : BitVec 8) : (∃ e, decodeOpcode opc = .error e) ↔
    opc.toNat = 0x03 ∨ (0x06 ≤ opc.toNat ∧ opc.toNat ≤ 0x0D) ∨ 0x10 ≤ opc.toNat := by
  unfold decodeOpcode
  split_ifs
  case neg h0 h1 h2 h4 h5 hE hF =>
    simp only [Except.error.injEq, exists_eq', true_iff]
    bv_omega
  all_goals
    subst opc
    simp

/-- The legal words by their fields: TAIL with any N, or another assigned OPC with N = 0. -/
theorem decode_eq_ok_iff (w : Word) (i : Instr) : decode w = .ok i ↔ reservedField w = 0#22 ∧
    (opcField w = 0x03#8 ∧ i = .tail (countField w).toNat ∨
      countField w = 0#2 ∧ decodeOpcode (opcField w) = .ok i) := by
  by_cases hr : reservedField w = 0#22
  · by_cases ho : opcField w = 0x03#8
    · simp [decode, decodeOpcode, hr, ho, eq_comm]
    · by_cases hn : countField w = 0#2 <;> simp [decode, hr, ho, hn]
  · simp [decode, hr]

/-- The illegal words by their fields. -/
theorem decode_eq_error_iff (w : Word) : (∃ e, decode w = .error e) ↔ reservedField w ≠ 0#22 ∨
    opcField w ≠ 0x03#8 ∧ (countField w ≠ 0#2 ∨ ∃ e, decodeOpcode (opcField w) = .error e) := by
  by_cases hr : reservedField w = 0#22
  · by_cases ho : opcField w = 0x03#8
    · simp [decode, hr, ho]
    · by_cases hn : countField w = 0#2 <;> simp [decode, hr, ho, hn]
  · simp [decode, hr]

theorem decode_eq_tail_iff (w : Word) : (∃ n, decode w = .ok (.tail n)) ↔
    reservedField w = 0#22 ∧ opcField w = 0x03#8 := by
  simp [decode_eq_ok_iff, decodeOpcode_eq_ok_iff, plainOpcodes]

/-! ### The opcode map (R73) -/

/-- R73: the eleven legal words, each with its command. -/
def opcodeMap : List (Word × Instr) :=
  [(0x00000000#32, .nop), (0x00000001#32, .init), (0x00000002#32, .mix),
    (0x00000003#32, .tail 0), (0x00000103#32, .tail 1), (0x00000203#32, .tail 2),
    (0x00000303#32, .tail 3), (0x00000004#32, .final), (0x00000005#32, .hash),
    (0x0000000E#32, .clrf), (0x0000000F#32, .srst)]

theorem decode_of_mem_opcodeMap : ∀ p ∈ opcodeMap, decode p.1 = .ok p.2 := by
  decide

theorem tail_mem_opcodeMap :
    ∀ n : BitVec 2, (commandWord n.toNat 0x03#8, .tail n.toNat) ∈ opcodeMap := by
  decide

theorem opcode_mem_opcodeMap {opc : BitVec 8} {i : Instr} (h : decodeOpcode opc = .ok i) :
    (commandWord 0 opc, i) ∈ opcodeMap := by
  have key : ∀ p ∈ plainOpcodes, (commandWord 0 p.1, p.2) ∈ opcodeMap := by decide
  exact key (opc, i) ((decodeOpcode_eq_ok_iff opc i).mp h)

/-- A legal word is put together from its fields again, TAIL's with its count, the others with N = 0. -/
theorem mem_opcodeMap_of_decode {w : Word} {i : Instr} (h : decode w = .ok i) :
    (w, i) ∈ opcodeMap := by
  obtain ⟨hr, ⟨ho, rfl⟩ | ⟨hn, hd⟩⟩ := (decode_eq_ok_iff w i).mp h
  · have hw : w = commandWord (countField w).toNat 0x03#8 :=
      (eq_commandWord_iff ..).mpr ⟨hr, by simp, ho⟩
    have hmem := tail_mem_opcodeMap (countField w)
    rwa [← hw] at hmem
  · have hw : w = commandWord 0 (opcField w) := (eq_commandWord_iff ..).mpr ⟨hr, hn, rfl⟩
    have hmem := opcode_mem_opcodeMap hd
    rwa [← hw] at hmem

/-- Settles O2: the opcode map by the fields of a word, the match and mask form by the mask's fields. -/
theorem opcodeMapIsComplete : Obligations.OpcodeMapIsComplete :=
  ⟨fun w i => ⟨mem_opcodeMap_of_decode, decode_of_mem_opcodeMap (w, i)⟩,
    fun w => (decode_eq_tail_iff w).trans (tailMask_eq_iff w).symm⟩

/-! ### The illegal words (R75) -/

/-- R75's lists, with the fields read as numbers. -/
theorem decode_eq_error_iff_toNat (w : Word) : (∃ e, decode w = .error e) ↔
    w.toNat / 1024 ≠ 0 ∨ (w.toNat / 256 % 4 ≠ 0 ∧ w.toNat % 256 ≠ 0x03) ∨
      (0x06 ≤ w.toNat % 256 ∧ w.toNat % 256 ≤ 0x0D) ∨ 0x10 ≤ w.toNat % 256 := by
  rw [decode_eq_error_iff, decodeOpcode_eq_error_iff]
  simp only [ne_eq, ← BitVec.toNat_inj, opcField_toNat, countField_toNat, reservedField_toNat,
    BitVec.toNat_ofNat]
  omega

open Machine in
/-- An illegal word written to CMD with FAULT = 0 raises ILLEGAL_CMD with the word as info (R75, R211). -/
theorem hostWrite_illegal {w : Word} {e : DecodeError} {s : State} (hd : decode w = .error e)
    (hf : s.status.fault = false) :
    hostWrite 0x08#6 w s = .next (raiseFault .illegalCmd w (clearDone s)) := by
  calc hostWrite 0x08#6 w s = acceptWord w s := rfl
    _ = .next (raiseFault .illegalCmd w (clearDone s)) := by simp [acceptWord, hd, hf]

/-- Settles O3: the lists by the fields of a word, the fault by the accept step of an illegal word. -/
theorem illegalWordsExactly : Obligations.IllegalWordsExactly := by
  intro w
  refine ⟨decode_eq_error_iff_toNat w, fun ⟨e, hd⟩ s _ hf => ⟨_, hostWrite_illegal hd hf, ?_⟩⟩
  simp [hf, Machine.Cause.code]

end Sys2Proof
end

section
/-! SUPPORT. The family of the mixer: `scramble` as numbers (R100), and the commands INIT and MIX (R102, R103). -/

namespace Sys2Proof.Machine

/-! ### The mixer's functions (R100, R101) -/

/-- Settles O6: the product, the rotate and the second product, each read as an operation on numbers. -/
theorem scrambleInNumbers : Obligations.ScrambleInNumbers := by
  intro k
  refine ⟨_, _, rfl, rfl, ?_⟩
  rw [scramble_toNat, rotl_toNat, BitVec.toNat_mul]
  rfl

@[simp] theorem scramble_zero : scramble 0#32 = 0#32 := by decide

/-- R103's corner case ARG = 0: the block adds nothing, the rotate and step 6 still run. -/
theorem mix_zero_left (h : Word) : mix 0#32 h = rotl h 13 * 5#32 + 0xe6546b64#32 := by
  rw [mix, scramble_zero, BitVec.xor_zero, BitVec.add_comm]

/-! ### The accept step by its two outcomes (R211, R212) -/

/-- R212: a command that the accept step does not let pass has no effect. -/
theorem exec_dropped {i : Instr} {s : State} (hw : i.wellFormed = true) (ha : accepts s i = false) :
    exec i s = .next s := by
  simp [exec_eq i s hw, acceptedState, ha]

theorem exec_init_of_not_fault {s : State} (hf : s.status.fault = false) :
    exec .init s = .next { s with acc := s.seed, status := { s.status with done := true } } := by
  rw [exec_eq _ _ rfl, acceptedState, if_pos (accepts_of_not_fault hf _)]
  rfl

theorem exec_mix_of_not_fault {s : State} (hf : s.status.fault = false) :
    exec .mix s =
      .next { s with acc := mix s.arg s.acc, status := { s.status with done := true } } := by
  rw [exec_eq _ _ rfl, acceptedState, if_pos (accepts_of_not_fault hf _)]
  rfl

/-! ### INIT and MIX (R102, R103) -/

theorem decode_eq_init_iff (w : Word) : decode w = .ok .init ↔ w = 0x00000001#32 :=
  (opcodeMapIsComplete.1 w .init).trans (by simp)

theorem decode_eq_mix_iff (w : Word) : decode w = .ok .mix ↔ w = 0x00000002#32 :=
  (opcodeMapIsComplete.1 w .mix).trans (by simp)

/-- Settles O13: INIT's word by the opcode map, its effect by the accept step in each FAULT state. -/
theorem initLoadsSeed : Obligations.InitLoadsSeed := by
  refine ⟨decode_eq_init_iff, fun s _ => ⟨exec_init_of_not_fault, fun hf => ?_⟩⟩
  exact exec_dropped rfl (by simp [accepts, hf])

/-- Settles O14: MIX's word by the opcode map, its effect by the accept step in each FAULT state, and
the rule's values computed. -/
theorem mixMixesArgIntoAcc : Obligations.MixMixesArgIntoAcc := by
  refine ⟨decode_eq_mix_iff, fun s _ => ⟨exec_mix_of_not_fault, fun hf => ?_⟩, mix_zero_left, ?_⟩
  · exact exec_dropped rfl (by simp [accepts, hf])
  · decide

end Sys2Proof.Machine
end

section
/-! SUPPORT. The family of the finaliser: `fmix` as numbers (R120), and the command FINAL (R122). -/

namespace Sys2Proof.Machine

/-! ### The finaliser's function (R120) -/

/-- Settles O8: the length's XOR, then the XOR-shifts and the products in turn, each read as an
operation on numbers. -/
theorem fmixInNumbers : Obligations.FmixInNumbers := by
  intro n h
  refine ⟨_, _, _, _, _, rfl, rfl, rfl, rfl, rfl, ?_⟩
  rw [fmix, xorShift_toNat, BitVec.toNat_mul, xorShift_toNat, BitVec.toNat_mul, xorShift_toNat,
    BitVec.toNat_xor]
  rfl

/-- The length enters only through the XOR of step 1. -/
theorem fmix_eq_fmix_zero (n h : Word) : fmix n h = fmix 0#32 (h ^^^ n) := by
  rw [fmix, fmix, BitVec.xor_zero]

/-- R122's corner cases for every length: an accumulator equal to the length finalises to 0. -/
theorem fmix_self (n : Word) : fmix n n = 0#32 := by
  rw [fmix_eq_fmix_zero, BitVec.xor_self]
  decide

/-! ### FINAL (R122) -/

theorem decode_eq_final_iff (w : Word) : decode w = .ok .final ↔ w = 0x00000004#32 :=
  (opcodeMapIsComplete.1 w .final).trans (by simp)

theorem exec_final_of_not_fault {s : State} (hf : s.status.fault = false) :
    exec .final s =
      .next { s with acc := fmix s.arg s.acc
                     result := fmix s.arg s.acc
                     status := { s.status with done := true } } := by
  rw [exec_eq _ _ rfl, acceptedState, if_pos (accepts_of_not_fault hf _)]
  rfl

/-- Settles O16: FINAL's word by the opcode map, its effect by the accept step in each FAULT state, the
corner cases by `fmix_self`, and the worked example computed. -/
theorem finalFinalisesAcc : Obligations.FinalFinalisesAcc := by
  refine ⟨decode_eq_final_iff, fun s _ => ⟨exec_final_of_not_fault, fun hf => ?_⟩,
    fmix_self _, fmix_self _, ?_⟩
  · exact exec_dropped rfl (by simp [accepts, hf])
  · decide

end Sys2Proof.Machine
end

section
/-! SUPPORT. The family of the byte-buffer path: HASH's accept step, its three checks and the start
of SEQ (R141). -/

namespace Sys2Proof.Machine

/-! ### The body of HASH's accept step, by its outcomes (R141, R214) -/

theorem negative_eq_true {v : Word} : negative v = true ↔ 2 ^ 31 ≤ v.toNat := by
  rw [← Bool.not_eq_false, negative_eq_false, Nat.not_lt]

theorem hashBody_negOffset {s : State} (ho : 2 ^ 31 ≤ s.offset.toNat) :
    hashBody s = raiseFault .negOffset s.offset s :=
  if_pos (negative_eq_true.mpr ho)

theorem hashBody_negLength {s : State} (ho : s.offset.toNat < 2 ^ 31)
    (hl : 2 ^ 31 ≤ s.length.toNat) : hashBody s = raiseFault .negLength s.length s := by
  simp [hashBody, negative_eq_false.mpr ho, negative_eq_true.mpr hl]

theorem hashBody_outOfBounds {s : State} (ho : s.offset.toNat < 2 ^ 31)
    (hl : s.length.toNat < 2 ^ 31) (hb : s.bufsize.toNat < s.offset.toNat + s.length.toNat) :
    hashBody s = raiseFault .outOfBounds (s.offset + s.length) s := by
  simp [hashBody, negative_eq_false.mpr ho, negative_eq_false.mpr hl, hb, BitVec.add_def]

theorem hashBody_start {s : State} (ho : s.offset.toNat < 2 ^ 31) (hl : s.length.toNat < 2 ^ 31)
    (hb : s.offset.toNat + s.length.toNat ≤ s.bufsize.toNat) : hashBody s = startSequencer s := by
  simp [hashBody, negative_eq_false.mpr ho, negative_eq_false.mpr hl, hb]

/-! ### What a fault and the start leave behind -/

/-- R213 with no fault recorded: the accept step's cause and info become the record. -/
theorem raiseFault_clearDone {s : State} (hf : s.status.fault = false) (c : Cause) (info : Word) :
    raiseFault c info (clearDone s) =
      { s with status := { busy := false, done := false, fault := true, fcause := c.code }
               finfo := info
               seq := { s.seq with phase := .idle } } := by
  simp [raiseFault, hf, clearDone]

/-- R141's start, with the block count as the floor quotient LENGTH / 4. -/
theorem startSequencer_clearDone {s : State} (hf : s.status.fault = false) :
    startSequencer (clearDone s) =
      { s with
        status := { busy := true, done := false, fault := false, fcause := s.status.fcause }
        seq := { phase := .blk
                 h := s.seed
                 idx := 0#32
                 nb := BitVec.ofNat 32 (s.length.toNat / 4) }
        stale := [] } := by
  simp [startSequencer, clearDone, hf, ← blockCount_toNat]

/-! ### HASH (R141) -/

theorem decode_eq_hash_iff (w : Word) : decode w = .ok .hash ↔ w = 0x00000005#32 :=
  (opcodeMapIsComplete.1 w .hash).trans (by simp)

theorem exec_hash_of_not_fault {s : State} (hf : s.status.fault = false) :
    exec .hash s = .next (hashBody (clearDone s)) := by
  rw [exec_eq _ _ rfl, acceptedState, if_pos (accepts_of_not_fault hf _)]

/-- Settles O17: HASH's word by the opcode map, the drop by the accept step, and each outcome by its
case of the body; the sum is exact because both operands are below 2^31. -/
theorem hashChecksAndStarts : Obligations.HashChecksAndStarts := by
  refine ⟨decode_eq_hash_iff, fun s _ => ⟨fun hf => ?dropped, fun hf ho => ?negOffset,
    fun hf ho hl => ?negLength, fun hf ho hl hb => ⟨?exactSum, ?outOfBounds⟩,
    fun hf ho hl hb => ?start⟩⟩
  case dropped => exact exec_dropped rfl (by simp [accepts, hf])
  case negOffset =>
    rw [exec_hash_of_not_fault hf, hashBody_negOffset (s := clearDone s) ho,
      raiseFault_clearDone hf]
    rfl
  case negLength =>
    rw [exec_hash_of_not_fault hf, hashBody_negLength (s := clearDone s) ho hl,
      raiseFault_clearDone hf]
    rfl
  case exactSum => exact BitVec.toNat_add_of_lt (by omega)
  case outOfBounds =>
    rw [exec_hash_of_not_fault hf, hashBody_outOfBounds (s := clearDone s) ho hl hb,
      raiseFault_clearDone hf]
    rfl
  case start =>
    rw [exec_hash_of_not_fault hf, hashBody_start (s := clearDone s) ho hl hb,
      startSequencer_clearDone hf]

end Sys2Proof.Machine
end

section
/-! SUPPORT. The family of the tail handler: `tailword` as a number (R170), TAIL's bytes of ARG as a
mask (R72), and the command TAIL (R172). -/

namespace Sys2Proof.Machine

/-! ### Bytes assembled little-endian (R55, R170) -/

theorem tailword_toNat (bs : List Byte) (h : bs.length ≤ 4) : (tailword bs).toNat = leValue bs := by
  rw [tailword, leWord_toNat bs 0 (by omega), Nat.mul_zero, Nat.pow_zero, Nat.one_mul]

/-- The four bytes' word is the OR of R55, byte by byte. -/
theorem leWord_four (b0 b1 b2 b3 : Byte) :
    leWord 0 [b0, b1, b2, b3] =
      b0.setWidth 32 ||| (b1.setWidth 32 <<< 8) ||| (b2.setWidth 32 <<< 16) |||
        (b3.setWidth 32 <<< 24) := by
  simp [leWord, zext32, BitVec.or_assoc]

/-- `t` bytes leave the bits from `8 * t` up clear. -/
theorem tailword_lt (bs : List Byte) (h : bs.length ≤ 4) :
    (tailword bs).toNat < 256 ^ bs.length := by
  rw [tailword_toNat bs h]
  exact leValue_lt bs

/-- Settles O10: the OR by the recursion of `leWord`, each number as the value of its bytes, and the
clear bits by the bound on that value. -/
theorem bytesAssembledLittleEndian : Obligations.BytesAssembledLittleEndian := by
  refine ⟨fun b0 b1 b2 b3 => ⟨leWord_four b0 b1 b2 b3, ?four⟩, rfl, fun b0 => ?one,
    fun b0 b1 => ?two, fun b0 b1 b2 => ?three, fun bs h => ?clear⟩
  case clear =>
    calc (tailword bs).toNat < 256 ^ bs.length := tailword_lt bs (by omega)
      _ ≤ 256 ^ 3 := Nat.pow_le_pow_right (by decide) h
  case four =>
    rw [leWord_toNat _ _ (by simp)]
    simp only [leValue]
    omega
  all_goals
    rw [tailword_toNat _ (by simp)]
    simp only [leValue]
    omega

/-! ### The low bytes of ARG (R72, R172) -/

theorem byteOf_zero_toNat (v : Word) : (byteOf v 0).toNat = v.toNat % 256 := by
  simp [byteOf]

theorem byteOf_succ (v : Word) (j : Nat) : byteOf v (j + 1) = byteOf (v >>> 8) j := by
  apply BitVec.eq_of_toNat_eq
  simp [byteOf, ← Nat.shiftRight_add, Nat.mul_add, Nat.add_comm]

theorem argBytes_succ (n : Nat) (v : Word) :
    argBytes (n + 1) v = byteOf v 0 :: argBytes n (v >>> 8) := by
  simp [argBytes, List.range_succ_eq_map, byteOf_succ]

@[simp] theorem argBytes_length (n : Nat) (v : Word) : (argBytes n v).length = n := by
  simp [argBytes]

/-- TAIL's bytes write the low bytes of ARG, read as a number. -/
theorem leValue_argBytes (n : Nat) (v : Word) : leValue (argBytes n v) = v.toNat % 256 ^ n := by
  induction n generalizing v with
  | zero => simp [argBytes, leValue, Nat.mod_one]
  | succ n ih =>
    rw [argBytes_succ, leValue, ih, byteOf_zero_toNat, BitVec.toNat_ushiftRight,
      Nat.shiftRight_eq_div_pow, Nat.pow_succ' (n := n), Nat.mod_mul]

/-- R72: assembling TAIL's bytes again masks ARG to its low `n` bytes. -/
theorem tailword_argBytes {n : Nat} (hn : n ≤ 4) (v : Word) :
    tailword (argBytes n v) = v &&& BitVec.ofNat 32 (2 ^ (8 * n) - 1) := by
  have hmask : 2 ^ (8 * n) ≤ 2 ^ 32 := Nat.pow_le_pow_right (by decide) (by omega)
  apply BitVec.eq_of_toNat_eq
  calc (tailword (argBytes n v)).toNat = v.toNat % 256 ^ n := by
        rw [tailword_toNat _ (by simpa using hn), leValue_argBytes]
    _ = v.toNat &&& (2 ^ (8 * n) - 1) := by
        rw [Nat.and_two_pow_sub_one_eq_mod, Nat.pow_mul]
    _ = (v &&& BitVec.ofNat 32 (2 ^ (8 * n) - 1)).toNat := by
        rw [BitVec.toNat_and, BitVec.toNat_ofNat, Nat.mod_eq_of_lt (by omega)]

/-! ### TAIL (R172) -/

theorem decode_tail {n : Nat} (hn : n < 4) :
    decode (BitVec.ofNat 32 (0x03 + 0x100 * n)) = .ok (.tail n) := by
  have hmem : ∀ k, k < 4 → (BitVec.ofNat 32 (0x03 + 0x100 * k), .tail k) ∈ opcodeMap := by decide
  exact decode_of_mem_opcodeMap (_, .tail n) (hmem n hn)

theorem wellFormed_tail {n : Nat} (hn : n < 4) : (Instr.tail n).wellFormed = true :=
  decide_eq_true hn

theorem exec_tail_of_not_fault {n : Nat} {s : State} (hn : n < 4) (hf : s.status.fault = false) :
    exec (.tail n) s =
      .next { s with acc := tailfold s.acc (s.arg &&& BitVec.ofNat 32 (2 ^ (8 * n) - 1)) n
                     status := { s.status with done := true } } := by
  rw [exec_eq _ _ (wellFormed_tail hn), acceptedState, if_pos (accepts_of_not_fault hf _),
    ← tailword_argBytes (Nat.le_of_lt hn)]
  rfl

/-- Settles O15: TAIL's words by the opcode map, the fold by the accept step with R72's mask for each
count, the drop by the accept step, and the worked example computed. -/
theorem tailFoldsLowBytesOfArg : Obligations.TailFoldsLowBytesOfArg := by
  refine ⟨fun n hn => decode_tail hn, fun s _ hf => ⟨?_, ?_, ?_, ?_⟩, fun s _ hf n hn => ?dropped,
    by decide, by decide⟩
  case dropped => exact exec_dropped (wellFormed_tail hn) (by simp [accepts, hf])
  all_goals exact exec_tail_of_not_fault (by decide) hf

end Sys2Proof.Machine
end

section
/-! SUPPORT. The family of control: the commands NOP, CLRF and SRST (R190, R191, R192). -/

namespace Sys2Proof.Machine

/-! ### The commands' words -/

theorem decode_eq_nop_iff (w : Word) : decode w = .ok .nop ↔ w = 0x00000000#32 :=
  (opcodeMapIsComplete.1 w .nop).trans (by simp)

theorem decode_eq_clrf_iff (w : Word) : decode w = .ok .clrf ↔ w = 0x0000000E#32 :=
  (opcodeMapIsComplete.1 w .clrf).trans (by simp)

theorem decode_eq_srst_iff (w : Word) : decode w = .ok .srst ↔ w = 0x0000000F#32 :=
  (opcodeMapIsComplete.1 w .srst).trans (by simp)

/-! ### NOP (R190) -/

theorem exec_nop_of_not_fault {s : State} (hf : s.status.fault = false) :
    exec .nop s = .next { s with status := { s.status with done := true } } := by
  rw [exec_eq _ _ rfl, acceptedState, if_pos (accepts_of_not_fault hf _)]
  rfl

/-- Settles O12: NOP's word by the opcode map, its effect by the accept step in each FAULT state. -/
theorem nopOnlyCompletes : Obligations.NopOnlyCompletes := by
  refine ⟨decode_eq_nop_iff, fun s _ => ⟨exec_nop_of_not_fault, fun hf => ?_⟩⟩
  exact exec_dropped rfl (by simp [accepts, hf])

/-! ### CLRF (R191) -/

/-- CLRF passes the accept step in every FAULT state (R212); it leaves BUSY alone. -/
theorem exec_clrf (s : State) :
    exec .clrf s =
      .next { s with status := { busy := s.status.busy, done := true, fault := false, fcause := 0#4 }
                     finfo := 0#32 } :=
  exec_eq .clrf s rfl

/-- Settles O18: CLRF's word by the opcode map, its effect by the accept step; BUSY is 0 already. -/
theorem clrfClearsFaultRecord : Obligations.ClrfClearsFaultRecord := by
  refine ⟨decode_eq_clrf_iff, fun s hb => ?_⟩
  rw [exec_clrf, hb]

/-! ### SRST (R192) -/

/-- SRST passes the accept step in every FAULT state (R212), and the reset does not see that the accept
step cleared DONE first. -/
theorem exec_srst (s : State) : exec .srst s = .next (resetState s) :=
  exec_eq .srst s rfl

/-- R240's values as HOST reads them, the sequencer idle and no interrupt, from any state. -/
theorem resetState_values (s : State) :
    (resetState s).status.word = 0x00000000#32 ∧ (resetState s).arg = 0#32 ∧
    (resetState s).seed = 0x00019919#32 ∧ (resetState s).acc = 0x00019919#32 ∧
    (resetState s).offset = 0#32 ∧ (resetState s).length = 0#32 ∧
    (resetState s).bufsize = 0#32 ∧ (resetState s).result = 0#32 ∧
    (resetState s).inten.word = 0#32 ∧ (resetState s).finfo = 0#32 ∧
    (resetState s).seq.phase = .idle ∧ irq (resetState s) = false :=
  have hstatus : State.reset.status.word = 0x00000000#32 := by decide
  have hinten : State.reset.inten.word = 0#32 := by decide
  ⟨hstatus, rfl, rfl, rfl, rfl, rfl, rfl, rfl, hinten, rfl, rfl, rfl⟩

/-- Settles O19: SRST's word by the opcode map, its effect by the reset's values, and the held write by
the stall of every write while BUSY = 1. -/
theorem srstResetsBlock : Obligations.SrstResetsBlock :=
  ⟨decode_eq_srst_iff, fun s _ => ⟨resetState s, exec_srst s, resetState_values s⟩,
    fun _ _ _ hb hh ht hq => step_write_held hb hh ht hq⟩

end Sys2Proof.Machine
end

section
/-! SUPPORT. The family of exceptions: the accept step's drop (R212), the fault action (R213), and the
causes with their infos (R210). -/

namespace Sys2Proof.Machine

/-! ### Accepting and dropping (R211, R212) -/

/-- R212: with FAULT = 0 every command is accepted, with FAULT = 1 only CLRF and SRST. -/
theorem accepts_eq_true_iff (s : State) (i : Instr) :
    accepts s i = true ↔ s.status.fault = false ∨ i = .clrf ∨ i = .srst := by
  cases i <;> simp [accepts]

/-- An accepted command's word written to CMD runs the command with DONE cleared, CLRF and SRST with
FAULT = 1 included (R211). -/
theorem hostWrite_accepted {w : Word} {i : Instr} {s : State} (hd : decode w = .ok i)
    (ha : accepts s i = true) : hostWrite 0x08#6 w s = exec i (clearDone s) := by
  rcases (accepts_eq_true_iff s i).mp ha with hf | rfl | rfl
  · exact hostWrite_command hd hf
  all_goals
    calc hostWrite 0x08#6 w s = acceptWord w s := rfl
      _ = exec _ s := by rw [acceptWord, hd]
      _ = exec _ (clearDone s) := by simp only [exec_clrf, exec_srst]; rfl

/-- A word that is neither CLRF's nor SRST's, legal or not, is dropped while FAULT = 1 (R212). -/
theorem hostWrite_dropped {w : Word} {s : State} (hf : s.status.fault = true)
    (hclrf : w ≠ 0x0000000E#32) (hsrst : w ≠ 0x0000000F#32) : hostWrite 0x08#6 w s = .next s := by
  have hw : hostWrite 0x08#6 w s = acceptWord w s := rfl
  rw [hw, acceptWord]
  cases hd : decode w with
  | error e => simp [hf]
  | ok i =>
    have hi : ¬ (s.status.fault = false ∨ i = .clrf ∨ i = .srst) := by
      rintro (h | rfl | rfl)
      · simp [hf] at h
      · exact hclrf ((decode_eq_clrf_iff w).mp hd)
      · exact hsrst ((decode_eq_srst_iff w).mp hd)
    exact exec_dropped (wellFormed_of_decode hd)
      (Bool.eq_false_iff.mpr fun ha => hi ((accepts_eq_true_iff s i).mp ha))

/-- Settles O23: the drop by what the accept step accepts; an accepted word is legal, or FAULT = 0 and
it is illegal, since the words of CLRF and SRST are legal. -/
theorem acceptDropsOrRuns : Obligations.AcceptDropsOrRuns := by
  refine fun w s _ => ⟨hostWrite_dropped, fun hpass => ?_⟩
  have hclrf : w = 0x0000000E#32 → decode w = .ok .clrf := (decode_eq_clrf_iff w).mpr
  have hsrst : w = 0x0000000F#32 → decode w = .ok .srst := (decode_eq_srst_iff w).mpr
  refine ⟨fun i hd => hostWrite_accepted hd ((accepts_eq_true_iff s i).mpr ?legal), fun e hd =>
    hostWrite_illegal hd ?illegal⟩
  case legal =>
    refine hpass.imp_right (Or.imp (fun hw => ?_) fun hw => ?_)
    · exact Except.ok.inj (hd.symm.trans (hclrf hw))
    · exact Except.ok.inj (hd.symm.trans (hsrst hw))
  case illegal =>
    rcases hpass with hf | hw | hw
    · exact hf
    · cases hd.symm.trans (hclrf hw)
    · cases hd.symm.trans (hsrst hw)

/-! ### The fault action (R213) -/

/-- With a fault recorded, the fault action keeps the record. -/
theorem raiseFault_of_fault {s : State} (hf : s.status.fault = true) (c : Cause) (info : Word) :
    raiseFault c info s =
      { s with
        status := { busy := false, done := false, fault := true, fcause := s.status.fcause }
        seq := { s.seq with phase := .idle } } := by
  simp [raiseFault, hf]

/-- In a reachable state with FAULT = 1, BUSY and DONE are 0 and no HASH runs (R42), so the fault action
finds nothing to change. -/
theorem raiseFault_eq_self {s : State} (hinv : s.Inv) (hf : s.status.fault = true) (c : Cause)
    (info : Word) : raiseFault c info s = s := by
  have hbusy : s.status.busy = false :=
    Bool.eq_false_iff.mpr fun h => by simpa [hf] using (hinv.busy_clear h).1
  have hdone : s.status.done = false :=
    Bool.eq_false_iff.mpr fun h => by simpa [hf] using (hinv.done_clear h).1
  have hphase : s.seq.phase = .idle := by
    cases hp : s.seq.phase with
    | idle => rfl
    | blk => simpa [hbusy] using hinv.busy_iff_blk.mpr hp
  calc raiseFault c info s
      = { s with status := ⟨s.status.busy, s.status.done, s.status.fault, s.status.fcause⟩
                 seq := { s.seq with phase := s.seq.phase } } := by
        rw [raiseFault_of_fault hf, hbusy, hdone, hf, hphase]
    _ = s := rfl

/-- Settles O24: the fault action by whether a fault is recorded; a refused write is one, and the
invariant leaves it nothing to change. -/
theorem faultActionRecordsFirst : Obligations.FaultActionRecordsFirst := by
  refine fun c info s => ⟨fun hf => by simp [raiseFault, hf],
    fun hf => raiseFault_of_fault hf c info, fun hinv hf off w ho => ?_⟩
  rw [hostWrite_refused w s ho, raiseFault_eq_self hinv hf]

/-! ### The causes and their infos (R210) -/

/-- With no fault recorded, the fault action records the cause's code and the info. -/
theorem raiseFault_records {s : State} (hf : s.status.fault = false) (c : Cause) (info : Word) :
    (raiseFault c info s).status.fault = true ∧ (raiseFault c info s).status.fcause = c.code ∧
      (raiseFault c info s).finfo = info := by
  simp [hf]

/-- No command but HASH sets FAULT in its accept step. -/
theorem acceptedState_fault {i : Instr} {s : State} (hi : i ≠ .hash)
    (hf : s.status.fault = false) : (acceptedState i s).status.fault = false := by
  unfold acceptedState
  rw [if_pos (accepts_of_not_fault hf i)]
  cases i with
  | hash => exact absurd rfl hi
  | clrf => rfl
  | srst => rfl
  | _ => exact hf

/-- A SEQ step that raises FAULT records BUF_ERROR with an index of the buffer space that answered
`err`, or had answered it since the accept (R146). -/
theorem SeqTo.bufError {s t : State} (h : SeqTo s t) (hf : s.status.fault = false)
    (ht : t.status.fault = true) :
    t.status.fcause = 5#4 ∧ ∃ a, t.finfo = BitVec.ofNat 32 a ∧ a < 2 ^ 32 ∧
      Answer.err ∈ s.buf.answer a :: staleAt s a := by
  have keeps : t.status.fault ≠ s.status.fault := by simp [hf, ht]
  cases h with
  | error hp j d hj hlt he e =>
    obtain ⟨-, hcause, hinfo⟩ := raiseFault_records
      (s := afterReads s (nextReads s).1 (j + 1) d) hf .bufError
      (BitVec.ofNat 32 ((nextReads s).1 + j))
    exact ⟨by rw [e, hcause]; rfl, _, by rw [e, hinfo], hlt, he⟩
  | idle _ e => exact absurd (by rw [e]) keeps
  | hang _ _ _ _ e => exact absurd (by rw [e]) keeps
  | block _ _ _ _ _ e => exact absurd (by rw [e]; rfl) keeps
  | final _ _ _ _ _ e => exact absurd (by rw [e]; rfl) keeps

/-- Settles O25: each cause where it is raised, by the outcomes of HASH's body, of a SEQ step and of a
HOST write; the exact sum fits 32 bits because both operands are below 2^31. -/
theorem faultCausesAndInfo : Obligations.FaultCausesAndInfo := by
  refine ⟨fun w s _ hf ⟨e, hd⟩ => ⟨_, hostWrite_illegal hd hf, raiseFault_records hf _ _⟩,
    fun s _ hf => ⟨_, exec_hash_of_not_fault hf, fun ho => ?negOffset, fun ho hl => ?negLength,
      fun ho hl hb => ?outOfBounds, fun ho hl hb => ?start⟩,
    fun s t hf h => (seqStep_cases h).bufError hf,
    fun off w s _ hf ho => ⟨_, hostWrite_refused w s ho, ?badReg⟩,
    fun i s t hi hf h => ?otherCommand, fun c => by cases c <;> decide⟩
  case negOffset =>
    rw [hashBody_negOffset (s := clearDone s) (negative_eq_true.mp ho)]
    exact raiseFault_records hf _ _
  case negLength =>
    rw [hashBody_negLength (s := clearDone s) (negative_eq_false.mp ho) (negative_eq_true.mp hl)]
    exact raiseFault_records hf _ _
  case outOfBounds =>
    have ho' := negative_eq_false.mp ho
    have hl' := negative_eq_false.mp hl
    rw [hashBody_outOfBounds (s := clearDone s) ho' hl' hb]
    obtain ⟨hfault, hcause, hinfo⟩ :=
      raiseFault_records (s := clearDone s) hf .outOfBounds (s.offset + s.length)
    exact ⟨hfault, hcause,
      (congrArg BitVec.toNat hinfo).trans (BitVec.toNat_add_of_lt (by omega))⟩
  case start =>
    rw [hashBody_start (s := clearDone s) (negative_eq_false.mp ho) (negative_eq_false.mp hl) hb]
    exact hf
  case badReg =>
    obtain ⟨hfault, hcause, hinfo⟩ := raiseFault_records hf .badReg (BitVec.ofNat 32 off.toNat)
    exact ⟨hfault, hcause, by
      rw [hinfo, BitVec.toNat_ofNat, Nat.mod_eq_of_lt (by omega)]⟩
  case otherCommand =>
    rw [exec_eq i s (wellFormed_of_exec h)] at h
    cases h
    exact acceptedState_fault hi hf

end Sys2Proof.Machine
end

section
/-! SUPPORT. The family of the hardware reset (R240): the step, what HOST reads after it, and the reset
values. -/

namespace Sys2Proof.Machine

/-- A listed hardware reset takes its step in every state, BUSY or not, before a held write. -/
theorem step_reset_turn {s : State} {ts : List Turn} (ht : s.turns = .reset :: ts) :
    step s = .next (hardwareReset { s with turns := ts }) := by
  unfold step machineStep
  rw [ht]

/-- After the hardware reset every register reads as in the reset state; what stays (the buffer, HOST's
queue, the schedule) is no register. -/
@[simp] theorem readReg_hardwareReset (r : Reg) (s : State) :
    readReg r (hardwareReset s) = readReg r State.reset := by
  cases r <;> rfl

@[simp] theorem hostReadValue_hardwareReset (off : Offset) (s : State) :
    hostReadValue off (hardwareReset s) = hostReadValue off State.reset := by
  simp only [hostReadValue, readReg_hardwareReset]

@[simp] theorem irq_hardwareReset (s : State) : irq (hardwareReset s) = false := rfl

/-- Settles O39: the listed reset's step, what is read after it, and `reset_state()`'s values, which the
reset state itself has. -/
theorem resetValues : Obligations.ResetValues := by
  intro s ts ht
  obtain ⟨hstatus, harg, hseed, hacc, hoffset, hlength, hbufsize, hresult, hinten, hfinfo, hphase,
    -⟩ := resetState_values State.reset
  exact ⟨_, step_reset_turn ht, fun off => hostReadValue_hardwareReset off _, rfl,
    hstatus, harg, hseed, hacc, hoffset, hlength, hbufsize, hresult, hinten, hfinfo, hphase,
    hphase, rfl, irq_hardwareReset _, rfl, rfl⟩

end Sys2Proof.Machine
end

section
/-! SUPPORT. The invariant (R36, R42, R53): it holds at reset, every step keeps it, and from a state
that meets it no step stops; what stands under it of the interrupt and of the fault record. -/

namespace Sys2Proof.Machine

/-! ### What the invariant says of a state in which no HASH runs -/

theorem State.Inv.idle_of_not_busy {s : State} (h : s.Inv) (hb : s.status.busy = false) :
    s.seq.phase = .idle := by
  cases hp : s.seq.phase with
  | idle => rfl
  | blk => exact absurd (h.busy_iff_blk.mpr hp) (by simp [hb])

theorem State.Inv.not_busy_of_fault {s : State} (h : s.Inv) (hf : s.status.fault = true) :
    s.status.busy = false :=
  Bool.eq_false_iff.mpr fun hb => absurd (h.busy_clear hb).1 (by simp [hf])

/-- A state with no HASH running meets the invariant when its flags and its fault record are as R42
says, and its buffer is that of a state that meets it. -/
theorem State.Inv.of_idle {s t : State} (h : s.Inv) (hbuf : t.buf = s.buf)
    (hb : t.status.busy = false) (hp : t.seq.phase = .idle)
    (hd : t.status.done = true → t.status.fault = false)
    (hclear : t.status.fault = false → t.status.fcause = 0#4 ∧ t.finfo = 0#32)
    (hcause : t.status.fault = true → 1 ≤ t.status.fcause.toNat ∧ t.status.fcause.toNat ≤ 6) :
    t.Inv where
  busy_iff_blk := by simp [hb, hp]
  busy_clear := by simp [hb]
  done_clear := fun hdone => ⟨hd hdone, hb⟩
  no_fault_clear := hclear
  fault_cause := hcause
  range := by simp [hb]
  mem_wf := hbuf ▸ h.mem_wf
  silent_wf := hbuf ▸ h.silent_wf

/-! ### The named updates keep the invariant -/

/-- The invariant does not see what HOST, the schedule and BUF's record hold, nor ARG, SEED, ACC,
RESULT and INTEN. -/
theorem State.Inv.congr {s t : State} (h : s.Inv) (hst : t.status = s.status)
    (hinfo : t.finfo = s.finfo) (hseq : t.seq = s.seq) (ho : t.offset = s.offset)
    (hl : t.length = s.length) (hsz : t.bufsize = s.bufsize) (hbuf : t.buf = s.buf) : t.Inv := by
  obtain ⟨h1, h2, h3, h4, h5, h6, h7, h8⟩ := h
  constructor
  case range =>
    rw [hst]
    intro hb
    obtain ⟨r1, r2, r3, r4, r5⟩ := h6 hb
    constructor <;> simp only [hseq, ho, hl, hsz] <;> assumption
  all_goals (simp only [hst, hinfo, hseq, hbuf]; assumption)

theorem State.Inv.clearDone {s : State} (h : s.Inv) : (clearDone s).Inv where
  busy_iff_blk := h.busy_iff_blk
  busy_clear := fun hb => ⟨(h.busy_clear hb).1, rfl⟩
  done_clear := fun hd => nomatch hd
  no_fault_clear := h.no_fault_clear
  fault_cause := h.fault_cause
  range := fun hb => by
    obtain ⟨h1, h2, h3, h4, h5⟩ := h.range hb
    exact ⟨h1, h2, h3, h4, h5⟩
  mem_wf := h.mem_wf
  silent_wf := h.silent_wf

theorem Cause.code_bounds (c : Cause) : 1 ≤ c.code.toNat ∧ c.code.toNat ≤ 6 := by
  cases c <;> decide

/-- R213: a fault ends any HASH and leaves the first cause recorded. -/
theorem State.Inv.raiseFault {s : State} (h : s.Inv) (c : Cause) (info : Word) :
    (raiseFault c info s).Inv := by
  refine h.of_idle rfl rfl rfl (fun hd => nomatch hd) (fun hf => nomatch hf) fun _ => ?_
  simp only [raiseFault_status]
  split
  · exact h.fault_cause ‹_›
  · exact c.code_bounds

theorem State.Inv.resetState {s : State} (h : s.Inv) : (resetState s).Inv :=
  h.of_idle rfl rfl rfl (fun _ => rfl) (fun _ => ⟨rfl, rfl⟩) (fun hf => nomatch hf)

/-- R141: the checks that HASH's accept step has made are the range of the running HASH. -/
theorem State.Inv.startSequencer {s : State} (h : s.Inv) (hf : s.status.fault = false)
    (hd : s.status.done = false) (ho : negative s.offset = false)
    (hl : negative s.length = false)
    (hle : s.offset.toNat + s.length.toNat ≤ s.bufsize.toNat) : (startSequencer s).Inv where
  busy_iff_blk := by simp
  busy_clear := fun _ => ⟨hf, hd⟩
  done_clear := fun hdone => absurd hdone (by simp [hd])
  no_fault_clear := h.no_fault_clear
  fault_cause := h.fault_cause
  range := fun _ => ⟨ho, hl, hle, rfl, Nat.zero_le _⟩
  mem_wf := h.mem_wf
  silent_wf := h.silent_wf

theorem State.Inv.hashBody {s : State} (h : s.Inv) (hf : s.status.fault = false)
    (hd : s.status.done = false) : (hashBody s).Inv := by
  rcases hashBody_cases s with ⟨-, e⟩ | ⟨-, -, e⟩ | ⟨-, -, -, e⟩ | ⟨ho, hl, hle, e⟩ <;> rw [e]
  · exact h.raiseFault _ _
  · exact h.raiseFault _ _
  · exact h.raiseFault _ _
  · exact h.startSequencer hf hd ho hl hle

theorem State.Inv.changeBuffer {s : State} (h : s.Inv) (a : Word) (v : Answer) :
    (changeBuffer a v s).Inv := by
  obtain ⟨hmem, hsilent, -⟩ := Buf.change_wf (v := v) h.mem_wf h.silent_wf a.isLt
  exact {
    busy_iff_blk := h.busy_iff_blk
    busy_clear := h.busy_clear
    done_clear := h.done_clear
    no_fault_clear := h.no_fault_clear
    fault_cause := h.fault_cause
    range := fun hb => by
      obtain ⟨h1, h2, h3, h4, h5⟩ := h.range hb
      exact ⟨h1, h2, h3, h4, h5⟩
    mem_wf := hmem
    silent_wf := hsilent }

theorem State.Inv.afterReads {s : State} (h : s.Inv) (a n d : Nat) : (afterReads s a n d).Inv :=
  h.congr rfl rfl rfl rfl rfl rfl rfl

/-- S.idx, below S.nb, does not wrap when it is incremented (R143). -/
theorem idx_succ_toNat {s : State} (hi : s.seq.idx.toNat < s.seq.nb.toNat) :
    (s.seq.idx + 1#32).toNat = s.seq.idx.toNat + 1 :=
  BitVec.toNat_add_of_lt (by have := s.seq.nb.isLt; simp; omega)

theorem State.Inv.mixBlock {s : State} (h : s.Inv)
    (hi : s.seq.idx.toNat < s.seq.nb.toNat) (bs : List Byte) : (mixBlock bs s).Inv where
  busy_iff_blk := h.busy_iff_blk
  busy_clear := h.busy_clear
  done_clear := h.done_clear
  no_fault_clear := h.no_fault_clear
  fault_cause := h.fault_cause
  range := fun hb => by
    obtain ⟨h1, h2, h3, h4, -⟩ := h.range hb
    exact ⟨h1, h2, h3, h4, (idx_succ_toNat hi).trans_le hi⟩
  mem_wf := h.mem_wf
  silent_wf := h.silent_wf

theorem State.Inv.finishHash {s : State} (h : s.Inv) (hp : s.seq.phase = .blk) (bs : List Byte) :
    (finishHash bs s).Inv := by
  obtain ⟨hf, -⟩ := h.busy_clear (h.busy_iff_blk.mpr hp)
  exact h.of_idle rfl rfl rfl (fun _ => hf) h.no_fault_clear h.fault_cause

/-! ### Every step keeps the invariant -/

/-- A command the accept step does not let pass leaves the state as it is (R212). -/
theorem acceptedState_of_not_accepts {i : Instr} {s : State} (h : ¬ accepts s i = true) :
    acceptedState i s = s :=
  if_neg h

/-- The accept step of a command keeps the invariant (R211, R212). -/
theorem State.Inv.acceptedState {s : State} (h : s.Inv) (hb : s.status.busy = false) (i : Instr) :
    (acceptedState i s).Inv := by
  by_cases ha : accepts s i = true
  case neg => exact (acceptedState_of_not_accepts ha).symm ▸ h
  case pos =>
    have hp := h.idle_of_not_busy hb
    unfold Machine.acceptedState
    rw [if_pos ha]
    have hf : i ≠ .clrf → i ≠ .srst → s.status.fault = false := fun hclrf hsrst =>
      ((accepts_eq_true_iff s i).mp ha).resolve_right (not_or.mpr ⟨hclrf, hsrst⟩)
    cases i with
    | clrf => exact h.of_idle rfl hb hp (fun _ => rfl) (fun _ => ⟨rfl, rfl⟩) (nomatch ·)
    | srst => exact h.clearDone.resetState
    | hash => exact h.clearDone.hashBody (hf nofun nofun) rfl
    | _ => exact h.of_idle rfl hb hp (fun _ => hf nofun nofun) h.no_fault_clear h.fault_cause

theorem WriteTo.inv {off : Offset} {w : Word} {s t : State} (hw : WriteTo off w s t) (h : s.Inv)
    (hb : s.status.busy = false) : t.Inv := by
  cases hw with
  | command i _ _ _ e => exact e ▸ h.acceptedState hb i
  | dropped _ _ e => exact e ▸ h
  | illegal _ _ _ e => exact e ▸ h.clearDone.raiseFault _ _
  | register _ _ _ _ _ _ _ e =>
    subst e
    exact h.of_idle rfl hb (h.idle_of_not_busy hb) (fun hd => (h.done_clear hd).1)
      h.no_fault_clear h.fault_cause
  | refused e => exact e ▸ h.raiseFault _ _

theorem SeqTo.inv {s t : State} (hs : SeqTo s t) (h : s.Inv) : t.Inv := by
  cases hs with
  | idle _ e => exact e ▸ h
  | hang _ _ _ _ e => exact e ▸ h
  | error _ _ _ _ _ _ e => exact e ▸ (h.afterReads _ _ _).raiseFault _ _
  | block _ hi _ _ _ e => exact e ▸ (h.afterReads _ _ _).mixBlock hi _
  | final hp _ _ _ _ e => exact e ▸ (h.afterReads _ _ _).finishHash hp _

/-- Settles O36, by the cases of a step: each of the updates it can make keeps the invariant. -/
theorem stepKeepsInvariant : Obligations.StepKeepsInvariant := by
  intro s t h hstep
  cases step_cases hstep with
  | reset ts _ e => exact e ▸ h.resetState.congr rfl rfl rfl rfl rfl rfl rfl
  | buffer a v ts _ e => exact e ▸ (h.changeBuffer a v).congr rfl rfl rfl rfl rfl rfl rfl
  | write wr q hd ts hb _ hw => exact hw.inv (h.congr rfl rfl rfl rfl rfl rfl rfl) hb
  | host q hd rd ts e => exact e ▸ h.congr rfl rfl rfl rfl rfl rfl rfl
  | seq ts hs => exact hs.inv (h.congr rfl rfl rfl rfl rfl rfl rfl)

/-- Settles O37: no HASH runs at reset, no fault is recorded and the buffer lists nothing. -/
theorem resetMeetsInvariant : Obligations.ResetMeetsInvariant where
  busy_iff_blk := by decide
  busy_clear := by decide
  done_clear := by decide
  no_fault_clear := by decide
  fault_cause := by decide
  range := fun hb => nomatch hb
  mem_wf := reset_mem_wf.1
  silent_wf := reset_mem_wf.2

/-! ### No step stops -/

/-- R53: the next reads of a running HASH lie in its range. -/
theorem State.Range.nextReads_bounds {s : State} (h : s.Range) :
    s.offset.toNat ≤ (nextReads s).1 ∧
      (nextReads s).1 + (nextReads s).2 ≤ s.offset.toNat + s.length.toNat := by
  have hnb : s.seq.nb.toNat = s.length.toNat / 4 := by rw [h.blocks, blockCount_toNat]
  have hle := h.index
  unfold nextReads
  split
  · exact ⟨by omega, by omega⟩
  · rw [tailCount_eq]
    exact ⟨by omega, by omega⟩

/-- Reads below 2^32 name indices of the buffer space, so what follows them answers a next state. -/
theorem afterFetch_next (s : State) (k : List Byte → State → State) {n a : Nat}
    (h : a + n ≤ Config.bufferSpace) : ∃ t, afterFetch s k (readBytes n a s) = .next t := by
  have hspec := readBytes_spec n a s
  cases hr : readBytes n a s with
  | outside a' =>
    rw [hr] at hspec
    obtain ⟨-, hlt, hge⟩ := hspec
    omega
  | _ => exact ⟨_, rfl⟩

/-- SEQ's step never stops: idle it changes nothing, and a running HASH's reads lie in its range, which
ends below 2^32, with S.idx at most S.nb. -/
theorem State.Inv.seqStep_next {s : State} (h : s.Inv) : ∃ t, seqStep s = .next t := by
  unfold seqStep
  cases hp : s.seq.phase with
  | idle => exact ⟨s, rfl⟩
  | blk =>
    have hr := h.range (h.busy_iff_blk.mpr hp)
    have hidx := hr.index
    obtain ⟨-, hend⟩ := hr.nextReads_bounds
    have hbound : (nextReads s).1 + (nextReads s).2 ≤ Config.bufferSpace :=
      (hend.trans hr.in_bounds).trans s.bufsize.isLt.le
    simp only
    split
    case isTrue hi =>
      simp only [nextReads, if_pos hi] at hbound
      exact afterFetch_next s Machine.mixBlock hbound
    case isFalse hi =>
      simp only [nextReads, if_neg hi] at hbound
      rw [if_pos (BitVec.eq_of_toNat_eq (by omega))]
      exact afterFetch_next s Machine.finishHash hbound

theorem heldFirst_next {s : State} {o : Outcome} (h : ∃ t, o = .next t) :
    ∃ t, heldFirst s o = .next t := by
  unfold heldFirst
  split
  · obtain ⟨t, ht, -⟩ := hostWrite_next _ _ _
    exact ⟨t, ht⟩
  · exact h

/-- Settles O38, by the turn that comes next: HOST's steps answer in every state, and SEQ's in every
state that meets the invariant. -/
theorem stepNeverStops : Obligations.StepNeverStops := by
  intro s h
  have hhost : ∀ u, ∃ t, hostStep u = .next t := fun u => by
    obtain ⟨t, ht, -⟩ := hostStep_next u
    exact ⟨t, ht⟩
  have hseq : ∀ ts, ∃ t, seqStep { s with turns := ts } = .next t := fun ts =>
    State.Inv.seqStep_next (h.congr rfl rfl rfl rfl rfl rfl rfl)
  unfold step machineStep
  split
  · exact ⟨_, rfl⟩
  · exact ⟨_, rfl⟩
  · exact heldFirst_next (hhost _)
  · exact heldFirst_next (hseq _)
  · refine heldFirst_next ?_
    split
    · exact h.seqStep_next
    · exact hhost s

/-! ### The interrupt (R220) -/

/-- Settles O31: INTEN's bits are its fields, and R42 leaves DONE and FAULT not both 1. -/
theorem interruptLevel : Obligations.InterruptLevel := by
  refine ⟨fun s => ?_, fun s h ⟨hd, hf⟩ => ?_, rfl⟩
  · simp [-BitVec.getLsbD_eq_getElem, irq, IntEn.word, bitWord_getLsbD]
  · exact absurd (h.done_clear hd).1 (by simp [hf])

/-! ### The fault record (R28, R212, R217) -/

theorem SeqTo.eq_of_idle {s t : State} (h : SeqTo s t) (hp : s.seq.phase = .idle) : t = s := by
  cases h with
  | idle _ e => exact e
  | hang hp' | error hp' | block hp' | final hp' => exact absurd (hp.symm.trans hp') (by decide)

/-- A HOST write with FAULT = 1 keeps the record, or it is CLRF's or SRST's word and clears it. -/
theorem WriteTo.faultRecord {off : Offset} {w : Word} {s t : State} (h : WriteTo off w s t)
    (hf : s.status.fault = true) :
    State.KeepsFaultRecord s t ∨
      (t.status.fault = false ∧ t.status.fcause = 0#4 ∧ t.finfo = 0#32) ∧ off = 0x08#6 ∧
        (w = 0x0000000E#32 ∨ w = 0x0000000F#32) := by
  cases h with
  | dropped _ _ e => exact .inl (e ▸ ⟨rfl, rfl, rfl⟩)
  | illegal _ hf' _ _ => exact absurd (hf.symm.trans hf') (by decide)
  | register _ _ _ _ _ _ _ e => exact .inl (e ▸ ⟨rfl, rfl, rfl⟩)
  | refused e =>
    rw [e, raiseFault_of_fault hf]
    exact .inl ⟨hf.symm, rfl, rfl⟩
  | command i ho hd _ e =>
    by_cases ha : accepts s i = true
    · rcases (accepts_eq_true_iff s i).mp ha with hf' | rfl | rfl
      · exact absurd (hf.symm.trans hf') (by decide)
      · exact .inr ⟨e ▸ ⟨rfl, rfl, rfl⟩, ho, .inl ((decode_eq_clrf_iff w).mp hd)⟩
      · exact .inr ⟨e ▸ ⟨rfl, rfl, rfl⟩, ho, .inr ((decode_eq_srst_iff w).mp hd)⟩
    · rw [acceptedState_of_not_accepts ha] at e
      exact .inl (e ▸ ⟨rfl, rfl, rfl⟩)

/-- Settles O27, by the cases of a step: SEQ is idle while FAULT = 1, so only the hardware reset and a
HOST write touch the record. -/
theorem faultRecordStaysUntilCleared : Obligations.FaultRecordStaysUntilCleared := by
  intro s t h hf hstep
  cases step_cases hstep with
  | reset ts hts e => exact .inr (e ▸ ⟨rfl, rfl, rfl, .inl ⟨ts, hts⟩⟩)
  | buffer a v ts _ e => exact .inl (e ▸ ⟨rfl, rfl, rfl⟩)
  | host q hd rd ts e => exact .inl (e ▸ ⟨rfl, rfl, rfl⟩)
  | seq ts hs =>
    have hp : s.seq.phase = .idle := h.idle_of_not_busy (h.not_busy_of_fault hf)
    rw [hs.eq_of_idle hp]
    exact .inl ⟨rfl, rfl, rfl⟩
  | write wr q hd ts _ hnext hw =>
    obtain ⟨off, w⟩ := wr
    refine (hw.faultRecord hf).imp id ?_
    rintro ⟨⟨hfault, hcause, hinfo⟩, rfl, rfl | rfl⟩
    · exact ⟨hfault, hcause, hinfo, .inr (.inl hnext)⟩
    · exact ⟨hfault, hcause, hinfo, .inr (.inr hnext)⟩

end Sys2Proof.Machine
end

section
/-! SUPPORT. Frames: what the commands and SEQ's steps leave unchanged, how precise a fault is (R215),
the operands of a running HASH (R142), and where its reads lie (R53). -/

namespace Sys2Proof.Machine

/-! ### The commands (R52, R102, R103, R122, R141, R172, R190 to R192) -/

theorem keepsMemory_of_buf_eq {s t : State} (h : t.buf = s.buf) : State.KeepsMemory s t :=
  fun a => by rw [h]

/-- A command other than HASH and SRST writes at most STATUS, ACC, RESULT and FINFO: BUSY never, the
fault record by CLRF alone, RESULT by FINAL alone, ACC not by NOP, CLRF and TAIL 0. -/
theorem acceptedState_register {i : Instr} (s : State) (hhash : i ≠ .hash) (hsrst : i ≠ .srst) :
    ∃ st acc res info,
      acceptedState i s = { s with status := st, acc := acc, result := res, finfo := info } ∧
      st.busy = s.status.busy ∧
      (i ≠ .clrf → st.fault = s.status.fault ∧ st.fcause = s.status.fcause ∧ info = s.finfo) ∧
      (i ≠ .final → res = s.result) ∧
      (i = .nop ∨ i = .clrf ∨ i = .tail 0 → acc = s.acc) := by
  by_cases ha : accepts s i = true
  case neg =>
    exact ⟨_, _, _, _, acceptedState_of_not_accepts ha, rfl, fun _ => ⟨rfl, rfl, rfl⟩,
      fun _ => rfl, fun _ => rfl⟩
  case pos =>
    unfold acceptedState
    rw [if_pos ha]
    cases i with
    | hash => exact absurd rfl hhash
    | srst => exact absurd rfl hsrst
    | nop => exact ⟨_, _, _, _, rfl, rfl, fun _ => ⟨rfl, rfl, rfl⟩, fun _ => rfl, fun _ => rfl⟩
    | init => exact ⟨_, _, _, _, rfl, rfl, fun _ => ⟨rfl, rfl, rfl⟩, fun _ => rfl, nofun⟩
    | mix => exact ⟨_, _, _, _, rfl, rfl, fun _ => ⟨rfl, rfl, rfl⟩, fun _ => rfl, nofun⟩
    | tail n =>
      refine ⟨_, _, _, _, rfl, rfl, fun _ => ⟨rfl, rfl, rfl⟩, fun _ => rfl, fun h => ?_⟩
      obtain rfl : n = 0 := by simpa using h
      rfl
    | final => exact ⟨_, _, _, _, rfl, rfl, fun _ => ⟨rfl, rfl, rfl⟩, fun h => absurd rfl h, nofun⟩
    | clrf => exact ⟨_, _, _, _, rfl, rfl, fun h => absurd rfl h, fun _ => rfl, fun _ => rfl⟩

/-- Settles O20: the registers a command may write, by its accept step. -/
theorem registerCommandFrame : Obligations.RegisterCommandFrame := by
  intro i s t hhash hsrst h
  obtain ⟨st, acc, res, info, e, hbusy, hrecord, hres, hacc⟩ :=
    acceptedState_register s hhash hsrst
  rw [exec_eq i s (wellFormed_of_exec h), e] at h
  cases h
  exact ⟨⟨rfl, rfl, rfl, rfl, rfl, rfl⟩, fun _ => rfl, ⟨rfl, rfl, rfl, rfl, rfl⟩, rfl, hbusy,
    hrecord, hres, hacc⟩

/-- HASH's body is a fault or the start (R141). -/
theorem hashBody_fault_or_start (s : State) :
    (∃ c info, hashBody s = raiseFault c info s) ∨ hashBody s = startSequencer s := by
  rcases hashBody_cases s with ⟨-, e⟩ | ⟨-, -, e⟩ | ⟨-, -, -, e⟩ | ⟨-, -, -, e⟩
  · exact .inl ⟨_, _, e⟩
  · exact .inl ⟨_, _, e⟩
  · exact .inl ⟨_, _, e⟩
  · exact .inr e

/-- Settles O21: HASH is dropped, faults or starts, and neither of the two writes more than STATUS,
FINFO and the sequencer. -/
theorem hashAcceptFrame : Obligations.HashAcceptFrame := by
  intro s t h
  rw [exec_eq .hash s rfl] at h
  cases h
  by_cases ha : accepts s .hash = true
  case neg =>
    rw [acceptedState_of_not_accepts ha]
    exact ⟨⟨rfl, rfl, rfl, rfl, rfl, rfl⟩, fun _ => rfl, ⟨rfl, rfl, rfl, rfl, rfl⟩, rfl, rfl,
      fun _ _ => ⟨rfl, rfl, rfl⟩⟩
  case pos =>
    have e : acceptedState .hash s = hashBody (clearDone s) := if_pos ha
    rw [e]
    rcases hashBody_fault_or_start (clearDone s) with ⟨c, info, e⟩ | e <;> rw [e]
    · exact ⟨⟨rfl, rfl, rfl, rfl, rfl, rfl⟩, fun _ => rfl, ⟨rfl, rfl, rfl, rfl, rfl⟩, rfl, rfl,
        fun _ hf => nomatch hf⟩
    · exact ⟨⟨rfl, rfl, rfl, rfl, rfl, rfl⟩, fun _ => rfl, ⟨rfl, rfl, rfl, rfl, rfl⟩, rfl, rfl,
        fun _ _ => ⟨rfl, rfl, rfl⟩⟩

/-- Settles O22: `reset_state()` touches neither the buffer nor what HOST and BUF hold. -/
theorem srstFrame : Obligations.SrstFrame := by
  intro s t h
  rw [exec_srst] at h
  cases h
  exact ⟨rfl, fun _ => rfl, rfl, rfl, rfl, rfl, rfl⟩

/-! ### SEQ's step (R142, R151) -/

theorem SeqTo.keepsOperands {s t : State} (h : SeqTo s t) : State.KeepsOperands s t := by
  cases h with
  | idle _ e | hang _ _ _ _ e | error _ _ _ _ _ _ e | block _ _ _ _ _ e | final _ _ _ _ _ e =>
    exact e ▸ ⟨rfl, rfl, rfl, rfl, rfl, rfl⟩

theorem SeqTo.keepsHost {s t : State} (h : SeqTo s t) :
    t.host = s.host ∧ t.held = s.held ∧ t.readData = s.readData ∧ t.turns = s.turns := by
  cases h with
  | idle _ e | hang _ _ _ _ e | error _ _ _ _ _ _ e | block _ _ _ _ _ e | final _ _ _ _ _ e =>
    exact e ▸ ⟨rfl, rfl, rfl, rfl⟩

/-- Only the completion writes ACC and RESULT, and it sets DONE (R145). -/
theorem SeqTo.keepsAcc {s t : State} (h : SeqTo s t) (hd : t.status.done = false) :
    t.acc = s.acc ∧ t.result = s.result := by
  cases h with
  | idle _ e | hang _ _ _ _ e | error _ _ _ _ _ _ e | block _ _ _ _ _ e =>
    exact e ▸ ⟨rfl, rfl⟩
  | final _ _ _ _ _ e =>
    subst e
    exact nomatch hd

/-- Only a step that ends the HASH writes STATUS and FINFO (R252). -/
theorem SeqTo.keepsStatus {s t : State} (h : SeqTo s t) (hb : t.status.busy = true) :
    t.status = s.status ∧ t.finfo = s.finfo := by
  cases h with
  | idle _ e | hang _ _ _ _ e | block _ _ _ _ _ e => exact e ▸ ⟨rfl, rfl⟩
  | error _ _ _ _ _ _ e | final _ _ _ _ _ e =>
    subst e
    exact nomatch hb

/-- While blocks are left, a step that raises no fault changes no architected register (R143). -/
theorem SeqTo.keepsRegisters {s t : State} (h : SeqTo s t)
    (hi : s.seq.idx.toNat < s.seq.nb.toNat) (ht : t.status.fault = false) :
    t.status = s.status ∧ t.acc = s.acc ∧ t.result = s.result ∧ t.finfo = s.finfo := by
  cases h with
  | idle _ e | hang _ _ _ _ e | block _ _ _ _ _ e => exact e ▸ ⟨rfl, rfl, rfl, rfl⟩
  | error _ _ _ _ _ _ e =>
    subst e
    exact nomatch ht
  | final _ he _ _ _ _ => exact absurd hi (by rw [he]; exact lt_irrefl _)

/-- Settles O43, by the cases of a SEQ step. -/
theorem seqStepFrame : Obligations.SeqStepFrame := by
  intro s t hstep
  have h := seqStep_cases hstep
  obtain ⟨hhost, hheld, hread, hturns⟩ := h.keepsHost
  exact ⟨h.keepsOperands, keepsMemory_of_buf_eq h.buf_eq, hhost, hheld, hread, hturns,
    h.eq_of_idle, h.keepsAcc, fun hi hf hf' => h.keepsRegisters hi (hf.trans hf')⟩

/-- Settles O34, by the cases of a step: while BUSY = 1 no HOST write takes its step. -/
theorem operandsFixedWhileBusy : Obligations.OperandsFixedWhileBusy := by
  intro s t _ hb hnr hstep
  cases step_cases hstep with
  | reset ts hts _ => exact absurd hts (hnr ts)
  | write _ _ _ _ hb' _ _ => exact absurd (hb.symm.trans hb') (by decide)
  | buffer _ _ _ _ e | host _ _ _ _ e =>
    exact e ▸ ⟨⟨rfl, rfl, rfl, rfl, rfl, rfl⟩, fun _ => ⟨rfl, rfl⟩, fun _ => ⟨rfl, rfl⟩⟩
  | seq ts h => exact ⟨h.keepsOperands, h.keepsAcc, h.keepsStatus⟩

/-! ### Faults are precise (R215) -/

/-- With no HASH running the fault action changes STATUS and FINFO alone. -/
theorem raiseFault_eq_of_idle {s : State} (hp : s.seq.phase = .idle) (c : Cause) (info : Word) :
    raiseFault c info s =
      { s with status := (raiseFault c info s).status
               finfo := (raiseFault c info s).finfo } := by
  have hseq : { s.seq with phase := .idle } = s.seq := by rw [← hp]
  simp only [raiseFault, hseq]

/-- R215 for the accept step: only HASH's faults, an illegal word's and a refused write's set FAULT, and
none of them changes more than STATUS and FINFO. -/
theorem WriteTo.precise {off : Offset} {w : Word} {s t : State} (h : WriteTo off w s t)
    (hp : s.seq.phase = .idle) (hf : s.status.fault = false) (ht : t.status.fault = true) :
    t = { s with status := t.status, finfo := t.finfo } := by
  have hne : t.status.fault ≠ s.status.fault := by simp [hf, ht]
  cases h with
  | dropped hf' _ _ => exact absurd (hf.symm.trans hf') (by decide)
  | register _ _ _ _ _ _ _ e => exact absurd (by rw [e]) hne
  | refused e => exact e ▸ raiseFault_eq_of_idle hp _ _
  | illegal _ _ _ e => exact e ▸ raiseFault_eq_of_idle (s := clearDone s) hp _ _
  | command i _ _ _ e =>
    by_cases hi : i = .hash
    case neg => exact absurd (by rw [e, acceptedState_fault hi hf, hf]) hne
    case pos =>
      have hacc : acceptedState i s = hashBody (clearDone s) := by
        rw [hi]
        exact if_pos (accepts_of_not_fault hf _)
      rw [hacc] at e
      rcases hashBody_fault_or_start (clearDone s) with ⟨c, info, hbody⟩ | hbody <;> rw [hbody] at e
      · exact e ▸ raiseFault_eq_of_idle (s := clearDone s) hp _ _
      · exact absurd (by rw [e]; rfl) hne

/-- R215 for SEQ: only BUF_ERROR sets FAULT. -/
theorem SeqTo.precise {s t : State} (h : SeqTo s t) (hf : s.status.fault = false)
    (ht : t.status.fault = true) :
    t = { s with status := t.status, finfo := t.finfo, seq := t.seq
                 bufReads := t.bufReads, draws := t.draws } := by
  have hne : t.status.fault ≠ s.status.fault := by simp [hf, ht]
  cases h with
  | error _ _ _ _ _ _ e => exact e ▸ rfl
  | idle _ e | hang _ _ _ _ e | block _ _ _ _ _ e | final _ _ _ _ _ e =>
    exact absurd (congrArg (·.status.fault) e) hne

/-- Settles O26: the accept step by the outcomes of a HOST write, SEQ's step by its cases. -/
theorem faultsArePrecise : Obligations.FaultsArePrecise := by
  refine ⟨fun w s t h hb hf hwrite ht => ?_, fun s t hf hstep ht =>
    (seqStep_cases hstep).precise hf ht⟩
  obtain ⟨t', ht', hw⟩ := hostWrite_next 0x08#6 w s
  rw [ht'] at hwrite
  cases hwrite
  exact hw.precise (h.idle_of_not_busy hb) hf ht

/-! ### Where reads lie (R53) -/

/-- A SEQ step asks BUF for its next reads in order, for all of them or for the first of them, and for
none while idle. -/
theorem SeqTo.reads {s t : State} (h : SeqTo s t) :
    ∃ n, n ≤ (nextReads s).2 ∧ t.bufReads = s.bufReads ++ List.range' (nextReads s).1 n ∧
      (n ≠ 0 → s.seq.phase = .blk) := by
  cases h with
  | idle _ e | hang _ _ _ _ e => exact ⟨0, Nat.zero_le _, by simp [e], fun h => absurd rfl h⟩
  | error hp j _ hj _ _ e => exact ⟨j + 1, hj, e ▸ rfl, fun _ => hp⟩
  | block hp hi _ _ _ e =>
    rw [nextReads, if_pos hi]
    exact ⟨4, le_refl _, e ▸ rfl, fun _ => hp⟩
  | final hp hi _ _ _ e =>
    rw [nextReads, if_neg (by rw [hi]; exact lt_irrefl _)]
    exact ⟨_, le_refl _, e ▸ rfl, fun _ => hp⟩

/-- A write of HOST asks BUF for nothing. -/
theorem WriteTo.bufReads_eq {off : Offset} {w : Word} {s t : State} (h : WriteTo off w s t) :
    t.bufReads = s.bufReads := by
  cases h with
  | command i _ _ hw e =>
    have hexec := e ▸ exec_eq i s hw
    by_cases hhash : i = .hash
    · obtain ⟨-, -, ⟨-, -, -, -, hreads⟩, -⟩ := hashAcceptFrame s t (hhash ▸ hexec)
      exact hreads
    · by_cases hsrst : i = .srst
      · obtain ⟨-, -, -, -, -, -, hreads⟩ := srstFrame s t (hsrst ▸ hexec)
        exact hreads
      · obtain ⟨-, -, ⟨-, -, -, -, hreads⟩, -⟩ := registerCommandFrame i s t hhash hsrst hexec
        exact hreads
  | dropped _ _ e | illegal _ _ _ e | register _ _ _ _ _ _ _ e | refused e => exact e ▸ rfl

/-- Settles O48: no step but SEQ's reads, and SEQ's next reads lie in the range of the HASH. -/
theorem readsStayInBounds : Obligations.ReadsStayInBounds := by
  intro s t h hstep
  have none : t.bufReads = s.bufReads → ∃ l, t.bufReads = s.bufReads ++ l ∧
      (l ≠ [] → s.status.busy = true) ∧
      ∀ a ∈ l, s.offset.toNat ≤ a ∧ a < s.offset.toNat + s.length.toNat ∧
        s.offset.toNat + s.length.toNat ≤ s.bufsize.toNat :=
    fun e => ⟨[], by simpa using e, by simp, by simp⟩
  cases step_cases hstep with
  | reset _ _ e | buffer _ _ _ _ e | host _ _ _ _ e => exact none (e ▸ rfl)
  | write _ _ _ _ _ _ hw => exact none hw.bufReads_eq
  | seq ts hs =>
    obtain ⟨n, hn, hreads, hblk⟩ := hs.reads
    by_cases hn0 : n = 0
    · exact none (by simpa [hn0] using hreads)
    · have hb : s.status.busy = true := h.busy_iff_blk.mpr (hblk hn0)
      have hr := h.range hb
      obtain ⟨hfirst, hlast⟩ := hr.nextReads_bounds
      refine ⟨_, hreads, fun _ => hb, fun a ha => ?_⟩
      obtain ⟨hge, hlt⟩ := List.mem_range'_1.mp ha
      exact ⟨hfirst.trans hge, hlt.trans_le ((Nat.add_le_add_left hn _).trans hlast), hr.in_bounds⟩

end Sys2Proof.Machine
end

section
/-! SUPPORT. A HASH as a whole: what its steps do where BUF's answers are known (R143 to R146, R255), the
value it completes with (R147), its number of steps (R148), and the empty range (R149). -/

namespace Sys2Proof.Machine

/-! ### One step of SEQ, where BUF's answers are known -/

theorem seqStep_block {s : State} (hp : s.seq.phase = .blk)
    (hi : s.seq.idx.toNat < s.seq.nb.toNat) : seqStep s = blockStep s := by
  simp only [seqStep, hp, if_pos hi]

theorem seqStep_final {s : State} (hp : s.seq.phase = .blk) (hi : s.seq.idx = s.seq.nb) :
    seqStep s = finalStep s := by
  simp [seqStep, hp, hi]

theorem byteRange_eq_map (bytes : Nat → Byte) (a n : Nat) :
    byteRange bytes a n = (List.range' a n).map bytes := by
  induction n generalizing a with
  | zero => rfl
  | succ n ih => rw [byteRange, ih, List.range'_succ, List.map_cons]

/-- Reads of unchanged indices that answer the bytes of a list. -/
theorem readBytes_list (bs : List Byte) (a : Nat) (s : State) (hst : s.stale = [])
    (hle : a + bs.length ≤ Config.bufferSpace)
    (hok : ∀ j b, bs[j]? = some b → s.buf.answer (a + j) = .ok b) :
    readBytes bs.length a s =
      .bytes bs { s with bufReads := s.bufReads ++ List.range' a bs.length } := by
  have hbs : byteRange (fun k => bs.getD (k - a) 0#8) a bs.length = bs := by
    rw [byteRange_eq_map]
    refine List.ext_getElem (by simp) fun j h1 h2 => ?_
    simp [h2]
  rw [readBytes_ok (fun k => bs.getD (k - a) 0#8) bs.length a s hst hle fun k hge hlt => ?_, hbs]
  have hk : bs[k - a]? = some (bs.getD (k - a) 0#8) := by
    simp [show k - a < bs.length by omega]
  rw [← hok _ _ hk, Nat.add_sub_cancel' hge]

/-- Settles O40: the four reads answer the block's bytes, whose little-endian word is R55's. -/
theorem blockStepMixesOneBlock : Obligations.BlockStepMixesOneBlock := by
  intro s b0 b1 b2 b3 a hp hi hst ha hlt h0 h1 h2 h3
  have hread := readBytes_list [b0, b1, b2, b3] a s hst (Nat.succ_le_of_lt hlt) fun j b hj => by
    match j, hj with
    | 0, rfl => exact h0
    | 1, rfl => exact h1
    | 2, rfl => exact h2
    | 3, rfl => exact h3
  rw [seqStep_block hp hi, blockStep, ← ha]
  exact (congrArg (afterFetch s mixBlock) hread).trans (by rw [← leWord_four]; rfl)

/-- Settles O41: the tail reads answer the tail bytes. -/
theorem finalStepCompletes : Obligations.FinalStepCompletes := by
  intro s bs a hp hi hst ha hle hlen hok
  refine ⟨_, _, rfl, rfl, ?_⟩
  rw [seqStep_final hp hi, finalStep, ← ha, tailCount_eq, ← hlen,
    readBytes_list bs a s hst hle hok]
  rfl

/-- In a block step and in the final step SEQ reads `n` bytes from index `a` and goes on with them. -/
theorem seqStep_eq_afterFetch {s : State} {a n : Nat} (hp : s.seq.phase = .blk)
    (h : s.seq.idx.toNat < s.seq.nb.toNat ∧ a = s.offset.toNat + 4 * s.seq.idx.toNat ∧ n = 4 ∨
      s.seq.idx = s.seq.nb ∧ a = s.offset.toNat + 4 * s.seq.nb.toNat ∧
        n = s.length.toNat % 4) :
    ∃ k, seqStep s = afterFetch s k (readBytes n a s) := by
  rcases h with ⟨hi, rfl, rfl⟩ | ⟨hi, rfl, rfl⟩
  · exact ⟨_, seqStep_block hp hi⟩
  · exact ⟨_, by rw [seqStep_final hp hi, finalStep, tailCount_eq]⟩

/-- Settles O42: the reads end at the first index answered `err`. -/
theorem bufErrorEndsHash : Obligations.BufErrorEndsHash := by
  intro s a n j hp hf hst hreads hj hlt hok herr
  obtain ⟨k, hk⟩ := seqStep_eq_afterFetch hp hreads
  rw [hk, readBytes_err n a j s hst hj hlt hok herr]
  simp [afterFetch, raiseFault, hf, Cause.code]

/-- Settles O44: the reads come to nothing at the first index that is not answered. -/
theorem withheldAnswerHangs : Obligations.WithheldAnswerHangs := by
  intro s a n j hp hst hreads hj hlt hok hw
  obtain ⟨k, hk⟩ := seqStep_eq_afterFetch hp hreads
  rw [hk, readBytes_hang n a j s hst hj hlt hok hw]
  rfl

/-! ### A HASH over a stable, answered buffer (R147) -/

/-- Where a HASH that began in state `s` over the bytes `bytes` stands in state `u`, while it runs: S.h is
the block loop's value after the S.idx blocks mixed so far (R140). -/
structure HashAt (bytes : Nat → Byte) (s u : State) : Prop where
  inv : u.Inv
  busy : u.status.busy = true
  backed : u.Backed bytes
  offset_eq : u.offset = s.offset
  length_eq : u.length = s.length
  h_eq : u.seq.h = mixBlocks bytes s.offset.toNat s.seq.h u.seq.idx.toNat

/-- What R147 says of the state a HASH that began in `s` completes in. -/
def HashResult (bytes : Nat → Byte) (s t : State) : Prop :=
  t.acc = murmur3 bytes s.offset.toNat s.length.toNat s.seq.h ∧
    t.result = murmur3 bytes s.offset.toNat s.length.toNat s.seq.h ∧
    t.status.done = true ∧ t.status.fault = false

theorem HashAt.start {bytes : Nat → Byte} {s : State} (hinv : s.Inv)
    (hb : s.status.busy = true) (h0 : s.seq.idx = 0#32) (hbk : s.Backed bytes) :
    HashAt bytes s s :=
  ⟨hinv, hb, hbk, rfl, rfl, by rw [h0]; rfl⟩

/-- What HOST and the schedule hold does not matter to a running HASH. -/
theorem HashAt.agents {bytes : Nat → Byte} {s u : State} (h : HashAt bytes s u)
    (q : List HostOp) (hd : Option HostWrite) (rd : List (Offset × Word)) (ts : List Turn) :
    HashAt bytes s { u with host := q, held := hd, readData := rd, turns := ts } :=
  ⟨h.inv.congr rfl rfl rfl rfl rfl rfl rfl, h.busy, h.backed, h.offset_eq, h.length_eq, h.h_eq⟩

theorem HashAt.running {bytes : Nat → Byte} {s u : State} (h : HashAt bytes s u) :
    u.seq.phase = .blk :=
  h.inv.busy_iff_blk.mp h.busy

theorem HashAt.nb_toNat {bytes : Nat → Byte} {s u : State} (h : HashAt bytes s u) :
    u.seq.nb.toNat = s.length.toNat / 4 := by
  rw [(h.inv.range h.busy).blocks, blockCount_toNat, h.length_eq]

/-- The bytes of a piece of the range that SEQ reads. -/
theorem HashAt.readBytes_eq {bytes : Nat → Byte} {s u : State} (h : HashAt bytes s u)
    {a n : Nat} (hge : u.offset.toNat ≤ a) (hle : a + n ≤ u.offset.toNat + u.length.toNat) :
    readBytes n a u =
      .bytes (byteRange bytes a n) { u with bufReads := u.bufReads ++ List.range' a n } := by
  have hr := h.inv.range h.busy
  obtain ⟨hst, hok⟩ := h.backed
  exact readBytes_ok bytes n a u hst ((hle.trans hr.in_bounds).trans u.bufsize.isLt.le)
    fun k hk hk' => hok k (hge.trans hk) (hk'.trans_le hle)

/-- A block step mixes the next block in (R143). -/
theorem HashAt.block {bytes : Nat → Byte} {s u : State} (h : HashAt bytes s u)
    (hi : u.seq.idx.toNat < u.seq.nb.toNat) :
    ∃ v, seqStep u = .next v ∧ HashAt bytes s v ∧ v.turns = u.turns ∧
      v.seq.idx.toNat = u.seq.idx.toNat + 1 := by
  have hnb := h.nb_toNat
  have hlen := h.length_eq
  have hstep := seqStep_block h.running hi
  rw [blockStep, h.readBytes_eq (by omega) (by rw [hlen]; omega)] at hstep
  refine ⟨_, hstep, ?_, rfl, idx_succ_toNat hi⟩
  exact {
    inv := (seqStep_cases hstep).inv h.inv
    busy := h.busy
    backed := h.backed
    offset_eq := h.offset_eq
    length_eq := h.length_eq
    h_eq := by
      show mix (leWord 0 (byteRange bytes (u.offset.toNat + 4 * u.seq.idx.toNat) 4)) u.seq.h =
        mixBlocks bytes s.offset.toNat s.seq.h (u.seq.idx + 1#32).toNat
      rw [idx_succ_toNat hi, mixBlocks, h.h_eq, h.offset_eq] }

/-- The final step folds the tail in and completes with the value of R140. -/
theorem HashAt.final {bytes : Nat → Byte} {s u : State} (h : HashAt bytes s u)
    (hi : u.seq.idx = u.seq.nb) :
    ∃ v, seqStep u = .next v ∧ v.status.busy = false ∧ HashResult bytes s v := by
  have hnb := h.nb_toNat
  have hlen := h.length_eq
  have htail : s.length.toNat % 4 = s.length.toNat - 4 * (s.length.toNat / 4) := by omega
  have hstep := seqStep_final h.running hi
  rw [finalStep, tailCount_eq, h.readBytes_eq (by omega) (by rw [hlen]; omega)] at hstep
  have hvalue : fmix u.length (tailfold u.seq.h
      (tailword (byteRange bytes (u.offset.toNat + 4 * u.seq.nb.toNat) (u.length.toNat % 4)))
      (byteRange bytes (u.offset.toNat + 4 * u.seq.nb.toNat) (u.length.toNat % 4)).length) =
      murmur3 bytes s.offset.toNat s.length.toNat s.seq.h := by
    rw [byteRange_length, h.h_eq, hi, hnb, hlen, h.offset_eq, htail, murmur3, BitVec.ofNat_toNat,
      BitVec.setWidth_eq]
  exact ⟨_, hstep, rfl, hvalue, hvalue, rfl, (h.inv.busy_clear h.busy).1⟩

/-- A block step or the final step comes next. -/
theorem HashAt.index_cases {bytes : Nat → Byte} {s u : State} (h : HashAt bytes s u) :
    u.seq.idx.toNat < u.seq.nb.toNat ∨ u.seq.idx = u.seq.nb :=
  (h.inv.range h.busy).index.lt_or_eq.imp id BitVec.eq_of_toNat_eq

/-- A step of a running HASH, with no reset and no buffer change listed, is HOST's, which changes only what
HOST holds, or SEQ's (R250). -/
theorem step_busy_undisturbed {s t : State} (hb : s.status.busy = true) (hu : s.Undisturbed)
    (h : step s = .next t) : ∃ ts, ts ⊆ s.turns ∧
      ((∃ q hd rd, t = { s with host := q, held := hd, readData := rd, turns := ts }) ∨
        seqStep { s with turns := ts } = .next t) := by
  have hhost : ∀ u, u.status.busy = true → hostStep u = .next t →
      ∃ q hd rd, t = { u with host := q, held := hd, readData := rd } := by
    intro u hub hstep
    obtain ⟨t', ht', ⟨q, hd, rd, e⟩ | ⟨_, _, _, hub', _⟩⟩ := hostStep_next u
    · rw [ht'] at hstep
      cases hstep
      exact ⟨q, hd, rd, e⟩
    · exact absurd (hub.symm.trans hub') (by decide)
  unfold step machineStep at h
  simp only [heldFirst_busy hb] at h
  split at h
  next ts hts => exact absurd (hu .reset (by simp [hts])) (by simp)
  next a v ts hts => exact absurd (hu (.buffer a v) (by simp [hts])) (by simp)
  next ts hts => exact ⟨ts, by simp [hts], .inl (hhost { s with turns := ts } hb h)⟩
  next ts hts => exact ⟨ts, by simp [hts], .inr h⟩
  next hts =>
    have hs : { s with turns := [] } = s := by rw [← hts]
    refine ⟨[], by simp, ?_⟩
    split at h
    · exact .inr (by rwa [hs])
    · obtain ⟨q, hd, rd, e⟩ := hhost s hb h
      exact .inl ⟨q, hd, rd, by rw [e, ← hts]⟩

theorem State.Undisturbed.of_subset {s t : State} (h : s.Undisturbed) (hsub : t.turns ⊆ s.turns) :
    t.Undisturbed :=
  fun x hx => h x (hsub hx)

/-- A step of HOST or SEQ carries the HASH on or completes it. -/
theorem HashAt.afterStep {bytes : Nat → Byte} {s u v : State} (h : HashAt bytes s u)
    (hu : u.Undisturbed) (hstep : step u = .next v) :
    (HashAt bytes s v ∧ v.Undisturbed) ∨ v.status.busy = false ∧ HashResult bytes s v := by
  obtain ⟨ts, hts, ⟨q, hd, rd, rfl⟩ | hseq⟩ := step_busy_undisturbed h.busy hu hstep
  · exact .inl ⟨h.agents q hd rd ts, hu.of_subset hts⟩
  · have h' := h.agents u.host u.held u.readData ts
    rcases h'.index_cases with hi | hi
    · obtain ⟨w, hw, hat, hturns, -⟩ := h'.block hi
      obtain rfl : w = v := Host.Outcome.next.inj (hw.symm.trans hseq)
      exact .inl ⟨hat, hu.of_subset (by rw [hturns]; exact hts)⟩
    · obtain ⟨w, hw, hbusy, hres⟩ := h'.final hi
      obtain rfl : w = v := Host.Outcome.next.inj (hw.symm.trans hseq)
      exact .inr ⟨hbusy, hres⟩

/-- The induction over a run in which BUSY = 1 up to its last step: what each step carries on, or turns
into `Q` when it leaves BUSY = 0, gives `Q` at the end. -/
theorem ends_of_run {P Q : State → Prop} (hbusy : ∀ u, P u → u.status.busy = true)
    (hstep : ∀ u v, P u → step u = .next v → P v ∨ v.status.busy = false ∧ Q v)
    {u t : State} {k : Nat} (h : P u)
    (hrunning : ∀ j v, j ≤ k → runFor j u = .next v → v.status.busy = true)
    (hrun : runFor (k + 1) u = .next t) (ht : t.status.busy = false) : Q t := by
  induction k generalizing u with
  | zero =>
    obtain ⟨v, hv, hr⟩ := step_of_runFor_succ hrun
    obtain rfl : v = t := Host.Outcome.next.inj hr
    rcases hstep u v h hv with hp | ⟨-, hq⟩
    · exact absurd ((hbusy v hp).symm.trans ht) (by decide)
    · exact hq
  | succ k ih =>
    obtain ⟨v, hv, hr⟩ := step_of_runFor_succ hrun
    have hvb : v.status.busy = true := hrunning 1 v (by omega) (by rw [runFor_succ hv]; rfl)
    rcases hstep u v h hv with hp | ⟨hb, -⟩
    · exact ih hp
        (fun j w hj hw => hrunning (j + 1) w (by omega) (by rw [runFor_succ hv, hw])) hr
    · exact absurd (hvb.symm.trans hb) (by decide)

/-- Settles O45: S.h is the block loop's value along the run, whatever HOST does meanwhile, and the
final step gives `murmur3_32` of it. -/
theorem hashComputesMurmur3 : Obligations.HashComputesMurmur3 := by
  intro s t bytes k hinv hb h0 hseed hbk hu hbusy hrun ht
  rw [← hseed]
  exact ends_of_run (P := fun u => HashAt bytes s u ∧ u.Undisturbed) (Q := HashResult bytes s)
    (fun _ h => h.1.busy) (fun _ _ h hstep => h.1.afterStep h.2 hstep)
    ⟨HashAt.start hinv hb h0 hbk, hu⟩ hbusy hrun ht

/-! ### The number of steps of a HASH (R148) -/

/-- With no turn listed SEQ moves while a HASH runs (log 1). -/
theorem step_running {s : State} (hb : s.status.busy = true) (hp : s.seq.phase = .blk)
    (ht : s.turns = []) : step s = seqStep s := by
  unfold step machineStep
  simp only [ht, heldFirst_busy hb, hp]

/-- `k` steps of a HASH with `k` blocks left mix `k` blocks. -/
theorem HashAt.run_blocks {bytes : Nat → Byte} {s u : State} (h : HashAt bytes s u)
    (ht : u.turns = []) {k : Nat} (hk : u.seq.idx.toNat + k ≤ u.seq.nb.toNat) :
    ∃ v, runFor k u = .next v ∧ HashAt bytes s v ∧ v.turns = [] ∧
      v.seq.idx.toNat = u.seq.idx.toNat + k := by
  induction k generalizing u with
  | zero => exact ⟨u, rfl, h, ht, rfl⟩
  | succ k ih =>
    obtain ⟨v, hv, hat, hvt, hidx⟩ := h.block (by omega)
    have hnb : v.seq.nb.toNat = u.seq.nb.toNat := hat.nb_toNat.trans h.nb_toNat.symm
    obtain ⟨w, hw, hwat, hwt, hwidx⟩ := ih hat (hvt.trans ht) (by omega)
    exact ⟨w, by rw [runFor_succ ((step_running h.busy h.running ht).trans hv), hw], hwat, hwt,
      by omega⟩

/-- The number of steps and the reads of a HASH whose every read answers a byte. -/
theorem hashSteps_of_backed {s : State} {bytes : Nat → Byte} (hinv : s.Inv)
    (hb : s.status.busy = true) (h0 : s.seq.idx = 0#32) (hts : s.turns = [])
    (hbk : s.Backed bytes) :
    (∀ k u, k ≤ s.length.toNat / 4 → runFor k s = .next u → u.status.busy = true) ∧
      ∃ t, runFor (s.length.toNat / 4 + 1) s = .next t ∧ t.status.busy = false ∧
        t.status.done = true ∧
        t.bufReads = s.bufReads ++ List.range' s.offset.toNat s.length.toNat := by
  have hat := HashAt.start hinv hb h0 hbk
  have hblocks : ∀ {k}, k ≤ s.length.toNat / 4 → ∃ v, runFor k s = .next v ∧ HashAt bytes s v ∧
      v.turns = [] ∧ v.seq.idx.toNat = s.seq.idx.toNat + k :=
    fun hk => hat.run_blocks hts (by rw [h0, hat.nb_toNat]; simpa using hk)
  have hbusy : ∀ k u, k ≤ s.length.toNat / 4 → runFor k s = .next u → u.status.busy = true := by
    intro k u hk hu
    obtain ⟨v, hv, hvat, -⟩ := hblocks hk
    obtain rfl : v = u := Host.Outcome.next.inj (hv.symm.trans hu)
    exact hvat.busy
  obtain ⟨v, hv, hvat, hvt, hidx⟩ := hblocks le_rfl
  have hlast : v.seq.idx = v.seq.nb := BitVec.eq_of_toNat_eq (by
    rw [hidx, h0, hvat.nb_toNat]
    simp)
  obtain ⟨t, ht, htb, -, -, hdone, -⟩ := hvat.final hlast
  have hrun : runFor (s.length.toNat / 4 + 1) s = .next t := runFor_add hv
    (runFor_succ ((step_running hvat.busy hvat.running hvt).trans ht) 0)
  obtain ⟨hreads, -⟩ := readsAscendOnce s t _ hinv hb h0 hbusy hrun htb
  exact ⟨hbusy, t, hrun, htb, hdone, hreads hdone⟩

/-- Where every read is answered, each SEQ step ends the HASH or leaves one block less, so with fewer than
`m` blocks left the HASH ends within `m` steps. -/
theorem answering_ends {u : State} {m : Nat} (hinv : u.Inv) (hb : u.status.busy = true)
    (ht : u.turns = []) (ha : u.Answering) (hm : u.seq.nb.toNat - u.seq.idx.toNat < m) :
    ∃ k t, k ≤ m ∧ runFor k u = .next t ∧ t.status.busy = false := by
  induction m generalizing u with
  | zero => exact absurd hm (Nat.not_lt_zero _)
  | succ m ih =>
    obtain ⟨v, hv⟩ := hinv.seqStep_next
    have hp := hinv.busy_iff_blk.mp hb
    have hstep : step u = .next v := (step_running hb hp ht).trans hv
    have hone : v.status.busy = false →
        ∃ k t, k ≤ m + 1 ∧ runFor k u = .next t ∧ t.status.busy = false :=
      fun hvb => ⟨1, v, by omega, runFor_succ hstep 0, hvb⟩
    cases seqStep_cases hv with
    | idle hp' _ => exact absurd (hp.symm.trans hp') (by decide)
    | hang _ j hj hw _ =>
      obtain ⟨hge, hle⟩ := (hinv.range hb).nextReads_bounds
      exact absurd rfl (ha _ (by omega) (by omega) _ hw)
    | error _ _ _ _ _ _ e => exact hone (by rw [e]; rfl)
    | final _ _ _ _ _ e => exact hone (by rw [e]; rfl)
    | block _ hi bs d _ e =>
      subst e
      have hidx := idx_succ_toNat hi
      obtain ⟨k, t, hk, hrun, htb⟩ := ih ((seqStep_cases hv).inv hinv) hb ht ha
        (show u.seq.nb.toNat - (u.seq.idx + 1#32).toNat < m by omega)
      exact ⟨k + 1, t, by omega, by rw [runFor_succ hstep, hrun], htb⟩

/-- Settles O46: the exact count where every read answers a byte, the bound where it may answer `err`. -/
theorem hashEndsInBlockCountSteps : Obligations.HashEndsInBlockCountSteps := by
  intro s hinv hb h0 hts
  refine ⟨fun bytes hbk => hashSteps_of_backed hinv hb h0 hts hbk, fun ha =>
    answering_ends hinv hb hts ha ?_⟩
  rw [(hinv.range hb).blocks, blockCount_toNat]
  omega

/-! ### The empty range (R149, R244) -/

/-- The only step of a HASH over the empty range reads nothing. -/
theorem seqStep_empty {s : State} (hp : s.seq.phase = .blk) (hi : s.seq.idx = s.seq.nb)
    (hl : s.length = 0#32) : seqStep s = .next (finishHash [] s) := by
  rw [seqStep_final hp hi, finalStep, hl]
  rfl

/-- Settles O52: the start, then the final step; the values computed. -/
theorem zeroLengthHash : Obligations.ZeroLengthHash := by
  refine ⟨fun s hb hf hl ho hle hts => ?_, by decide, by decide, ⟨_, rfl, by decide, by decide⟩⟩
  have hexec : exec .hash s = .next (startSequencer (clearDone s)) := by
    rw [exec_hash_of_not_fault hf, hashBody_start (s := clearDone s) ho (by simp [hl])
      (by simpa [hl] using hle)]
  have hnb : (0#32 : Word) = blockCount s.length := by rw [hl]; decide
  have hstep : step (startSequencer (clearDone s)) =
      .next (finishHash [] (startSequencer (clearDone s))) :=
    (step_running (s := startSequencer (clearDone s)) rfl rfl hts).trans
      (seqStep_empty rfl hnb hl)
  have hvalue : fmix s.length s.seed = fmix 0#32 s.seed := by rw [hl]
  exact ⟨_, _, hexec, hstep, rfl, rfl, hvalue, hvalue, rfl⟩

end Sys2Proof.Machine
end

section
/-! SUPPORT. Encoding and decoding are inverse to each other (R70, R73, R74), and the term TAIL with a count
above 3 lies outside of both (log 11). -/

namespace Sys2Proof

/-- TAIL's count, below 4, fits the field N whole (R70). -/
theorem decode_encode_tail {n : Nat} (hn : n < 4) : decode (encode (.tail n)) = .ok (.tail n) := by
  have hcount : (countField (encode (.tail n))).toNat = n := by
    rw [encode, countField_commandWord, BitVec.toNat_ofNat, Nat.mod_eq_of_lt hn]
  refine (decode_eq_ok_iff _ _).mpr ⟨reservedField_commandWord .., .inl ⟨?_, ?_⟩⟩
  · exact opcField_commandWord ..
  · rw [hcount]

/-- Settles O4: TAIL by the fields of its word, every other command's one word computed. -/
theorem decodeOfEncode : Obligations.DecodeOfEncode := by
  intro i h
  cases i with
  | tail n => exact decode_encode_tail (of_decide_eq_true h)
  | _ => rfl

theorem encode_of_mem_opcodeMap : ∀ p ∈ opcodeMap, encode p.2 = p.1 := by
  decide

/-- Settles O5: a legal word stands in the opcode map, and each entry's word is its command's encoding. -/
theorem encodeOfDecode : Obligations.EncodeOfDecode := fun w i h =>
  ⟨Machine.wellFormed_of_decode h, encode_of_mem_opcodeMap (w, i) (mem_opcodeMap_of_decode h)⟩

/-- Settles O1: the words are entries of the opcode map. -/
theorem sampleWordsDecode : Obligations.SampleWordsDecode := by
  have key : ∀ p ∈ opcodeMap, decode p.1 = .ok p.2 := decode_of_mem_opcodeMap
  refine ⟨key (_, _) ?_, key (_, _) ?_, key (_, _) ?_, key (_, _) ?_, key (_, _) ?_,
    key (_, _) ?_, key (_, _) ?_, key (_, _) ?_⟩ <;> decide

/-- Settles O58: the refusal by TAIL's own check, and a decoded count is two bits. -/
theorem illFormedTailIsRefused : Obligations.IllFormedTailIsRefused :=
  ⟨fun _ _ hn => if_neg (Nat.not_lt.mpr hn), fun _ _ h =>
    of_decide_eq_true (Machine.wellFormed_of_decode h)⟩

end Sys2Proof
end

section
/-! SUPPORT. The laws of the hash's pure functions (R101, R121, R171) and the layout of STATUS (R25). -/

namespace Sys2Proof.Machine

/-! ### Bijections of the 32-bit words -/

theorem injective_xor_right (c : Word) : Function.Injective (fun x : Word => x ^^^ c) :=
  fun _ _ h => (BitVec.xor_left_inj c).mp h

theorem injective_xor_left (c : Word) : Function.Injective (fun x : Word => c ^^^ x) :=
  fun _ _ h => (BitVec.xor_right_inj c).mp h

theorem injective_add_left (c : Word) : Function.Injective (fun x : Word => c + x) :=
  fun _ _ h => (BitVec.add_right_inj c).mp h

/-- R101: the product with each odd constant and the rotate can be undone. -/
theorem injective_scramble : Function.Injective scramble :=
  (injective_mul (d := 0x56ed309b#32) (by decide)).comp
    ((injective_rotl (r := 15) (by decide)).comp
      (injective_mul (c := 0xcc9e2d51#32) (d := 0xdee13bb1#32) (by decide)))

/-- The rotate, the product by 5 and the addend of R101's steps 5 and 6. -/
theorem injective_mixEnd :
    Function.Injective (fun x : Word => 0xe6546b64#32 + rotl x 13 * 5#32) :=
  (injective_add_left 0xe6546b64#32).comp
    ((injective_mul (c := 5#32) (d := 0xcccccccd#32) (by decide)).comp
      (injective_rotl (r := 13) (by decide)))

/-- R121: the XOR-shifts and the products of R120 can be undone. -/
theorem injective_fmix (n : Word) : Function.Injective (fmix n) :=
  (injective_xorShift (r := 16) (by decide)).comp
    ((injective_mul (c := 0xc2b2ae35#32) (d := 0x7ed1b41d#32) (by decide)).comp
      ((injective_xorShift (r := 13) (by decide)).comp
        ((injective_mul (c := 0x85ebca6b#32) (d := 0xa5cb9243#32) (by decide)).comp
          ((injective_xorShift (r := 16) (by decide)).comp (injective_xor_right n)))))

/-! ### `mix`, `fmix`, `tailfold` -/

/-- R101's steps 4 to 6 on numbers. -/
theorem mix_toNat (k h : Word) :
    (mix k h).toNat =
      ((rotl (h ^^^ scramble k) 13).toNat * 5 % 2 ^ 32 + 0xe6546b64) % 2 ^ 32 := by
  rw [mix, BitVec.add_comm, BitVec.toNat_add, BitVec.toNat_mul]
  rfl

/-- Settles O7: the steps on numbers, and each law by an injection of the finite set of words. -/
theorem mixInNumbersAndBijective : Obligations.MixInNumbersAndBijective := by
  refine ⟨fun k h => ⟨_, _, rfl, rfl, ?_⟩, scramble_zero, ?_, fun k => ?_, fun h => ?_, by decide⟩
  · rw [mix_toNat, rotl_toNat, BitVec.toNat_xor]
  · exact Finite.injective_iff_bijective.mp injective_scramble
  · exact Finite.injective_iff_bijective.mp
      (injective_mixEnd.comp (injective_xor_right (scramble k)))
  · exact Finite.injective_iff_bijective.mp
      (injective_mixEnd.comp ((injective_xor_left h).comp injective_scramble))

/-- Settles O9: the length's XOR, the injection, and the values computed. -/
theorem fmixLaws : Obligations.FmixLaws :=
  ⟨fmix_eq_fmix_zero, Finite.injective_iff_bijective.mp (injective_fmix 0#32), fmix_self 0#32,
    by decide, by decide⟩

theorem tailfold_of_ne_zero (h k : Word) {t : Nat} (ht : t ≠ 0) :
    tailfold h k t = h ^^^ scramble k :=
  if_neg ht

/-- Settles O11: each law by whether the tail is empty; V-T6's two values computed. -/
theorem tailfoldIsScrambleOnly : Obligations.TailfoldIsScrambleOnly := by
  refine ⟨fun _ _ => rfl, fun h k _ ht => tailfold_of_ne_zero h k ht, fun h t => ?_,
    fun h k t => ?_, by decide⟩
  all_goals
    by_cases ht : t = 0
    · simp [tailfold, ht]
    · simp [tailfold_of_ne_zero _ _ ht, BitVec.xor_comm]

/-! ### STATUS as a word (R25) -/

/-- The bits of STATUS as HOST reads it. -/
theorem status_word_getLsbD (st : Status) (j : Nat) :
    st.word.getLsbD j =
      (decide (j = 0) && st.busy || decide (j = 1) && st.done || decide (j = 2) && st.fault ||
        decide (4 ≤ j) && st.fcause.getLsbD (j - 4)) := by
  have hcause : 32 ≤ j → st.fcause.getLsbD (j - 4) = false := fun h =>
    BitVec.getLsbD_of_ge _ _ (by omega)
  by_cases hj : j < 32
  · simp only [Status.word, BitVec.getLsbD_or, BitVec.getLsbD_shiftLeft, bitWord_getLsbD,
      BitVec.getLsbD_setWidth, hj]
    grind
  · rw [BitVec.getLsbD_of_ge _ _ (by omega), hcause (by omega)]
    grind

/-- Settles O29, by the bits of STATUS. -/
theorem statusLayout : Obligations.StatusLayout := by
  intro st
  refine ⟨?_, ?_, ?_, ?_, ?fcause, fun j hj => ?reserved⟩
  case fcause =>
    apply BitVec.eq_of_getLsbD_eq
    intro i hi
    rw [BitVec.getLsbD_extractLsb', status_word_getLsbD]
    simp [hi, show 4 + i ≠ 1 by omega, show 4 + i ≠ 2 by omega]
  case reserved =>
    rw [status_word_getLsbD, BitVec.getLsbD_of_ge st.fcause _ (by omega)]
    grind
  all_goals
    rw [status_word_getLsbD]
    simp

end Sys2Proof.Machine
end

section
/-! SUPPORT. The platform's changes of the buffer (R54, R62), the turns of HOST while writes stall (R250)
and in which a command runs (R211), and that the blocks of a platform are independent (R233). -/

namespace Sys2Proof.Machine

/-! ### A change of the buffer -/

/-- Settles O50: a read by its two cases, and the earlier answers by how a change records them. -/
theorem readIsOldOrNew : Obligations.ReadIsOldOrNew := by
  refine ⟨fun a s => ⟨memRead_answer a s, fun h => by rw [memRead_fresh h]⟩, fun a v s n hp => ?_⟩
  have hstale : (changeBuffer a v s).stale = s.stale ++ [(a.toNat, s.buf.answer a.toNat)] := by
    simp [changeBuffer, hp]
  by_cases hn : n = a.toNat
  · simp [staleAt, hstale, hn]
  · simp [staleAt, hstale, hn, Ne.symm hn]

/-- An index's answer rests on whether it is withheld, on BUF_BYTES and on the byte listed there. -/
theorem Buf.answer_congr {b c : Buf} {n : Nat} (hs : n ∈ c.silent ↔ n ∈ b.silent)
    (hb : c.bytes = b.bytes) (hm : Memory.read c.mem n = Memory.read b.mem n) :
    c.answer n = b.answer n := by
  simp only [Buf.answer, hs, hb, hm]

/-- The platform's change of index `a` leaves every other index's answer (R54). -/
theorem Buf.answer_change_other {b : Buf} (h : Memory.wf b.mem) {a n : Nat} (hn : n ≠ a)
    (v : Answer) : (b.change a v).answer n = b.answer n := by
  cases v with
  | ok x =>
    exact Buf.answer_congr (by simp [Buf.change, hn]) rfl
      (by simp [Buf.change, Memory.read_write _ _ _ _ h.1, hn])
  | err =>
    exact Buf.answer_congr (by simp [Buf.change, hn]) rfl
      (by simp [Buf.change, Memory.read_erase _ _ _ h.1, hn])
  | withheld => exact Buf.answer_congr (by simp [Buf.change, mem_insertIndex, hn]) rfl rfl

/-- What index `a` answers after the platform's change of it (R54). -/
theorem Buf.answer_change_same {b : Buf} (h : Memory.wf b.mem) (a : Nat) (v : Answer) :
    (b.change a v).answer a = if v ≠ .withheld ∧ b.bytes ≤ a then .err else v := by
  cases v with
  | ok x => simp [Buf.answer, Buf.change, Memory.read_write _ _ _ _ h.1]
  | err => simp [Buf.answer, Buf.change, Memory.read_erase _ _ _ h.1, Memory.unlisted]
  | withheld => simp [Buf.answer, Buf.change, mem_insertIndex]

/-- Settles O51: the answers after a change, and the canonical form kept. -/
theorem bufferChangeIsLocal : Obligations.BufferChangeIsLocal := by
  intro a v s hmem hsilent
  obtain ⟨hmem', hsilent', hbytes⟩ := Buf.change_wf (v := v) hmem hsilent a.isLt
  exact ⟨Buf.answer_change_same hmem _ _, fun n hn => Buf.answer_change_other hmem hn v, hbytes,
    hmem', hsilent'⟩

/-! ### Held writes and commands -/

/-- A held write performs at the first step after BUSY is 0, when no reset and no buffer change comes
first (R250). -/
theorem step_held_due {s : State} {wr : HostWrite} (hb : s.status.busy = false)
    (hh : s.held = some wr) (hu : s.Undisturbed) :
    step s = hostWrite wr.off wr.data { s with held := none } := by
  unfold step machineStep
  split
  next ts hts => exact absurd (hu .reset (by simp [hts])) (by simp)
  next a v ts hts => exact absurd (hu (.buffer a v) (by simp [hts])) (by simp)
  all_goals exact heldFirst_due hb hh _

/-- Settles O33: each clause by the turn that is taken. -/
theorem writesStallWhileBusy : Obligations.WritesStallWhileBusy := by
  refine ⟨fun off w rest ts s hb hh ht hq => step_write_held hb hh ht hq,
    fun wr ts s hb hh ht => ?stalled, fun wr s hb hh hu => step_held_due hb hh hu,
    fun off rest ts s hb hh ht hq => ?read,
    fun ts s ht => ⟨_, step_reset_turn ht, rfl, rfl, rfl⟩⟩
  case stalled =>
    unfold step machineStep
    simp only [ht, heldFirst_busy hb, hostStep, hh]
  case read =>
    obtain ⟨-, -, hread⟩ := hostReadsAreIdempotent
    exact ⟨_, hread off rest ts s hq hh ht, rfl, hh, rfl⟩

/-- A legal word written to CMD is its command's accept step (R211). -/
theorem hostWrite_legal {w : Word} {i : Instr} (hd : decode w = .ok i) (s : State) :
    hostWrite 0x08#6 w s = exec i s := by
  calc hostWrite 0x08#6 w s = acceptWord w s := rfl
    _ = exec i s := by rw [acceptWord, hd]

/-- Settles O35: the step is the write's, and the write is the command's accept step. -/
theorem stepRunsDecodedCommand : Obligations.StepRunsDecodedCommand := by
  intro w i s hd hb
  refine ⟨fun rest ts hq hh ht => ?_, fun rest hq hh ht hp => ?_, fun hh hu => ?_⟩
  · rw [step_host_turn hh ht, ← hostWrite_legal hd]
    unfold issue
    simp [hq, hb]
  · rw [step_head_write hq hb hp hh ht, hostWrite_legal hd]
  · rw [step_held_due hb hh hu, hostWrite_legal hd]

/-! ### Platforms (R56, R233) -/

/-- A step of the `k`-th block changes the platform at `k` alone, by induction on the list. -/
theorem stepInstance_eq {k : Nat} {ps qs : Platform} (h : stepInstance k ps = some qs) :
    qs.length = ps.length ∧ (∀ j, j ≠ k → qs[j]? = ps[j]?) ∧
      ∃ p t, ps[k]? = some p ∧ step p.block = .next t ∧ qs[k]? = some { p with block := t } := by
  induction ps generalizing k qs with
  | nil => cases k <;> cases h
  | cons p ps ih =>
    cases k with
    | zero =>
      rw [stepInstance] at h
      split at h
      next t ht =>
        cases h
        refine ⟨rfl, fun j hj => ?_, p, t, rfl, ht, rfl⟩
        cases j with
        | zero => exact absurd rfl hj
        | succ j => rfl
      all_goals cases h
    | succ k =>
      obtain ⟨rs, hrs, rfl⟩ := Option.map_eq_some_iff.mp h
      obtain ⟨hlen, hother, p', t, hp, ht, hq⟩ := ih hrs
      refine ⟨congrArg (· + 1) hlen, fun j hj => ?_, p', t, hp, ht, hq⟩
      cases j with
      | zero => rfl
      | succ j => exact hother j (by omega)

/-- Settles O57: the list by the induction, the window by its bounds. -/
theorem instancesAreIndependent : Obligations.InstancesAreIndependent := by
  refine ⟨fun k ps qs h => stepInstance_eq h, fun p off => ?_, fun p addr => ?_⟩
  · have := off.isLt
    rw [windowOffset, regAddress, if_pos (by omega), Nat.add_sub_cancel_left, BitVec.ofNat_toNat,
      BitVec.setWidth_eq]
  · simp [windowOffset]

end Sys2Proof.Machine
end

section
/-! SUPPORT. Command streams: what the assembler writes and refuses (R77, R78), and that the primitive
commands compute what HASH computes (R104, R123). -/

namespace Sys2Proof.Machine

/-! ### The assembler (R77, R78) -/

theorem assemble_mixImm {n : Nat} (h : n < 2 ^ 32) : assemble (.mixImm n) =
    some [.write 0x0C#6 (BitVec.ofNat 32 n), .write 0x08#6 (encode .mix)] := by
  rw [assemble, writeStmt_reg .arg h, commandStmt_of_wf rfl]
  rfl

theorem assemble_tailImm {t n : Nat} (ht : t < 4) (h : n < 2 ^ 32) : assemble (.tailImm t n) =
    some [.write 0x0C#6 (BitVec.ofNat 32 n), .write 0x08#6 (encode (.tail t))] := by
  rw [assemble, writeStmt_reg .arg h, commandStmt_of_wf (wellFormed_tail ht)]
  rfl

theorem assemble_finalImm {n : Nat} (h : n < 2 ^ 32) : assemble (.finalImm n) =
    some [.write 0x0C#6 (BitVec.ofNat 32 n), .write 0x08#6 (encode .final)] := by
  rw [assemble, writeStmt_reg .arg h, commandStmt_of_wf rfl]
  rfl

theorem encode_tail {t : Nat} (ht : t < 4) :
    encode (.tail t) = BitVec.ofNat 32 (0x03 + 0x100 * t) := by
  obtain ⟨-, h⟩ := encodeOfDecode _ _ (decode_tail ht)
  exact h

/-- Bit 0 of STATUS as read is BUSY (R25). -/
theorem readReg_status_busy (s : State) : (readReg .status s).getLsbD 0 = s.status.busy := by
  obtain ⟨h, -⟩ := statusLayout s.status
  exact h

/-- Settles O55: the expansions by the assembler's lemmas, `wait` by HOST's turn and STATUS's bit 0. -/
theorem pseudoInstructionsExpand : Obligations.PseudoInstructionsExpand := by
  refine ⟨fun n hn => ⟨assemble_mixImm hn, fun t ht => ?tail, assemble_finalImm hn,
    writeStmt_reg .seed hn, rfl⟩, fun off len size sd ho hl hsz hs => ?hashbuf,
    fun s rest ts hq hh ht => ?wait⟩
  case tail => rw [assemble_tailImm ht hn, encode_tail ht]
  case hashbuf =>
    rw [assemble, hashbufStmt, writeStmt_reg _ ho, writeStmt_reg _ hl, writeStmt_reg _ hsz,
      writeStmt_reg _ hs, commandStmt_of_wf rfl]
    rfl
  case wait =>
    have hbit := readReg_status_busy { s with turns := ts }
    rw [step_host_turn hh ht]
    unfold issue
    simp only [hq] at hbit ⊢
    rw [hbit]
    cases s.status.busy <;> rfl

/-- Settles O56: a fitting immediate by the write it stands for, any other by the refused write, and a
count above 3 by the refused command. -/
theorem assemblerChecksImmediates : Obligations.AssemblerChecksImmediates := by
  refine fun r n => ⟨fun h => ⟨writeStmt_reg r h, fun off ho => writeStmt_raw ho h,
    writeStmt_reg .cmd h⟩, fun h => ?_, fun t ht => ⟨commandStmt_refused ht, ?_⟩⟩
  · have hw (t : Target) : writeStmt t n = none := writeStmt_refused t h
    exact ⟨hw _, fun _ => hw _, hw _, by simp [assemble, hashbufStmt, hw],
      by simp [assemble, hw], by simp [assemble, hw], hw _, fun _ => by simp [assemble, hw],
      fun _ _ _ => ⟨by simp [assemble, hashbufStmt, hw], by simp [assemble, hashbufStmt, hw],
        by simp [assemble, hashbufStmt, hw], by simp [assemble, hashbufStmt, hw]⟩⟩
  · rw [assemble, commandStmt_refused ht, stmtThen_none_right]

/-! ### Running HOST's accesses (R211, R250; log 1) -/

/-- A state in which HOST's accesses run one per step: no HASH runs, no fault is recorded, no write is held
and no turn is listed. -/
structure Quiet (s : State) : Prop where
  not_busy : s.status.busy = false
  idle : s.seq.phase = .idle
  no_fault : s.status.fault = false
  no_held : s.held = none
  no_turns : s.turns = []

/-- HOST's accesses `ops`, at the head of its queue, take `s` to `t`, one per step. -/
def Runs (ops : List HostOp) (s t : State) : Prop :=
  ∀ rest, runFor ops.length { s with host := ops ++ rest } = .next { t with host := rest }

theorem Runs.append {a b : List HostOp} {s t u : State} (h1 : Runs a s t) (h2 : Runs b t u) :
    Runs (a ++ b) s u := by
  intro rest
  rw [List.length_append, List.append_assoc]
  exact runFor_add (h1 _) (h2 rest)

theorem runs_write {s t : State} {off : Offset} {w : Word} (hs : Quiet s)
    (hw : ∀ q, hostWrite off w { s with host := q } = .next { t with host := q }) :
    Runs [.write off w] s t := by
  intro rest
  have hstep : step { s with host := .write off w :: rest } = .next { t with host := rest } :=
    (step_head_write (s := { s with host := .write off w :: rest }) rfl hs.not_busy hs.idle
      hs.no_held hs.no_turns).trans (hw rest)
  exact runFor_succ hstep 0

/-- The write of a command's word runs its accept step. -/
theorem runs_command {s t : State} {i : Instr} (hs : Quiet s) (hi : i.wellFormed = true)
    (hexec : ∀ q, exec i { s with host := q } = .next { t with host := q }) :
    Runs [.write 0x08#6 (encode i)] s t :=
  runs_write hs fun q => (hostWrite_legal (decodeOfEncode i hi) _).trans (hexec q)

/-- The write of ARG and then a command's word, as the pseudo-instructions have it (R78). -/
theorem runs_argCommand {s t : State} {i : Instr} {w : Word} (hs : Quiet s)
    (hi : i.wellFormed = true)
    (hexec : ∀ q, exec i { s with arg := w, host := q } = .next { t with host := q }) :
    Runs [.write 0x0C#6 w, .write 0x08#6 (encode i)] s t := by
  have harg : Runs [.write 0x0C#6 w] s { s with arg := w } := runs_write hs fun _ => rfl
  have hs' : Quiet { s with arg := w } :=
    ⟨hs.not_busy, hs.idle, hs.no_fault, hs.no_held, hs.no_turns⟩
  exact harg.append (runs_command hs' hi hexec)

/-! ### Running statements -/

/-- The statements `l` assemble, and HOST's accesses for them take `s` to `t`, where the next ones can
run. -/
def StmtsRun (l : List Stmt) (s t : State) : Prop :=
  Quiet t ∧ ∃ ops, assembleAll l = some ops ∧ Runs ops s t

theorem StmtsRun.nil {s : State} (hs : Quiet s) : StmtsRun [] s s :=
  ⟨hs, [], rfl, fun _ => rfl⟩

theorem StmtsRun.append {l m : List Stmt} {s t u : State} (h1 : StmtsRun l s t)
    (h2 : StmtsRun m t u) : StmtsRun (l ++ m) s u := by
  obtain ⟨-, a, ha, hra⟩ := h1
  obtain ⟨hq, b, hb, hrb⟩ := h2
  exact ⟨hq, a ++ b, by rw [assembleAll_append, ha, hb, stmtThen_some], hra.append hrb⟩

theorem stmtsRun_of_runs {st : Stmt} {ops : List HostOp} {s t : State} (ht : Quiet t)
    (ha : assemble st = some ops) (hr : Runs ops s t) : StmtsRun [st] s t :=
  ⟨ht, ops, by simp [assembleAll, ha], hr⟩

/-- The state after `init`, `mix`, `tail` or `final` has completed with ARG, ACC and RESULT as given. -/
def completed (s : State) (arg acc result : Word) : State :=
  { s with arg := arg, acc := acc, result := result, status := { s.status with done := true } }

theorem Quiet.completed {s : State} (hs : Quiet s) (arg acc result : Word) :
    Quiet (completed s arg acc result) :=
  ⟨hs.not_busy, hs.idle, hs.no_fault, hs.no_held, hs.no_turns⟩

theorem stmtsRun_init {s : State} (hs : Quiet s) :
    StmtsRun [.init] s (completed s s.arg s.seed s.result) :=
  stmtsRun_of_runs (hs.completed _ _ _) (commandStmt_of_wf rfl)
    (runs_command hs rfl fun _ => exec_init_of_not_fault hs.no_fault)

theorem stmtsRun_mixImm {s : State} (hs : Quiet s) (w : Word) :
    StmtsRun [.mixImm w.toNat] s (completed s w (mix w s.acc) s.result) := by
  refine stmtsRun_of_runs (hs.completed _ _ _) (assemble_mixImm w.isLt) ?_
  rw [BitVec.ofNat_toNat, BitVec.setWidth_eq]
  exact runs_argCommand hs rfl fun _ => exec_mix_of_not_fault hs.no_fault

theorem stmtsRun_finalImm {s : State} (hs : Quiet s) (w : Word) :
    StmtsRun [.finalImm w.toNat] s (completed s w (fmix w s.acc) (fmix w s.acc)) := by
  refine stmtsRun_of_runs (hs.completed _ _ _) (assemble_finalImm w.isLt) ?_
  rw [BitVec.ofNat_toNat, BitVec.setWidth_eq]
  exact runs_argCommand hs rfl fun _ => exec_final_of_not_fault hs.no_fault

/-- TAIL's masked ARG is the word of the bytes it was assembled from (R72). -/
theorem exec_tail_bytes {s : State} {bs : List Byte} (hl : bs.length < 4)
    (hf : s.status.fault = false) (harg : s.arg = leWord 0 bs) :
    exec (.tail bs.length) s =
      .next { s with acc := tailfold s.acc (tailword bs) bs.length
                     status := { s.status with done := true } } := by
  rw [exec_tail_of_not_fault hl hf, harg, ← tailword_argBytes hl.le,
    argBytes_leWord bs (Nat.le_of_lt_succ hl)]

theorem stmtsRun_tailImm {s : State} (hs : Quiet s) (bs : List Byte) (hl : bs.length < 4) :
    StmtsRun [.tailImm bs.length (leWord 0 bs).toNat] s
      (completed s (leWord 0 bs) (tailfold s.acc (tailword bs) bs.length) s.result) := by
  refine stmtsRun_of_runs (hs.completed _ _ _) (assemble_tailImm hl (leWord 0 bs).isLt) ?_
  rw [BitVec.ofNat_toNat, BitVec.setWidth_eq]
  exact runs_argCommand hs (wellFormed_tail hl) fun _ => exec_tail_bytes hl hs.no_fault rfl

/-! ### The block loop, the tail and the whole hash (R104, R123) -/

/-- The MIX statements of the first `n` blocks, by induction on the blocks. -/
theorem stmtsRun_mixStmts {s : State} (hs : Quiet s) (hd : s.status.done = true)
    (bytes : Nat → Byte) (off n : Nat) :
    ∃ t, StmtsRun (mixStmts bytes off n) s t ∧ t.acc = mixBlocks bytes off s.acc n ∧
      t.result = s.result ∧ t.status.done = true := by
  induction n with
  | zero => exact ⟨s, .nil hs, rfl, rfl, hd⟩
  | succ n ih =>
    obtain ⟨t, ht, hacc, hres, -⟩ := ih
    exact ⟨_, ht.append (stmtsRun_mixImm ht.1 _), by rw [mixBlocks, ← hacc]; rfl, hres, rfl⟩

/-- INIT and then the MIX statements, from any value of ACC. -/
theorem stmtsRun_blockLoop {s : State} (hs : Quiet s) (bytes : Nat → Byte) (off n : Nat) :
    ∃ t, StmtsRun (.init :: mixStmts bytes off n) s t ∧ t.acc = mixBlocks bytes off s.seed n ∧
      t.result = s.result ∧ t.status.done = true := by
  have hinit := stmtsRun_init hs
  obtain ⟨t, ht, hacc, hres, hd⟩ := stmtsRun_mixStmts hinit.1 rfl bytes off n
  exact ⟨t, hinit.append ht, hacc, hres, hd⟩

theorem quiet_of_inv {s : State} (h : s.Inv) (hb : s.status.busy = false)
    (hf : s.status.fault = false) (hh : s.held = none) (ht : s.turns = []) : Quiet s :=
  ⟨hb, h.idle_of_not_busy hb, hf, hh, ht⟩

/-- Settles O53: the run of the statements, with nothing else in HOST's queue. -/
theorem mixSequenceIsBlockLoop : Obligations.MixSequenceIsBlockLoop := by
  intro s bytes off m ops hinv hb hf hh hts hasm hq
  obtain ⟨t, ⟨-, ops', hasm', hruns⟩, hacc, hres, hd⟩ :=
    stmtsRun_blockLoop (quiet_of_inv hinv hb hf hh hts) bytes off m
  obtain rfl : ops = ops' := Option.some.inj (hasm.symm.trans hasm')
  have hs : { s with host := ops ++ [] } = s := by rw [List.append_nil, ← hq]
  have hrun := hruns []
  rw [hs] at hrun
  exact ⟨_, hrun, hacc, hres, hd⟩

/-- TAIL for the `n` tail bytes, or nothing when there are none. -/
theorem stmtsRun_tailStmts {s : State} (hs : Quiet s) (bytes : Nat → Byte) (a : Nat) {n : Nat}
    (hn : n < 4) :
    ∃ t, StmtsRun (tailStmts bytes a n) s t ∧
      t.acc = tailfold s.acc (tailword (byteRange bytes a n)) n := by
  cases n with
  | zero => exact ⟨s, .nil hs, rfl⟩
  | succ n =>
    have hl := byteRange_length bytes a (n + 1)
    have hrun := stmtsRun_tailImm hs (byteRange bytes a (n + 1)) (by rwa [hl])
    rw [hl] at hrun
    exact ⟨_, hrun, rfl⟩

/-- The primitive commands leave `murmur3_32` in ACC and RESULT. -/
theorem stmtsRun_primitiveStmts {s : State} (hs : Quiet s) (bytes : Nat → Byte) (off : Nat)
    {len : Nat} (hlen : len < 2 ^ 32) :
    ∃ t, StmtsRun (primitiveStmts bytes off len) s t ∧ t.result = murmur3 bytes off len s.seed ∧
      t.acc = murmur3 bytes off len s.seed ∧ t.status.done = true := by
  obtain ⟨t, ht, hacc, -, -⟩ := stmtsRun_blockLoop hs bytes off (len / 4)
  obtain ⟨u, hu, huacc⟩ :=
    stmtsRun_tailStmts ht.1 bytes (off + 4 * (len / 4)) (Nat.mod_lt len (by decide : 4 > 0))
  have hfinal := stmtsRun_finalImm hu.1 (BitVec.ofNat 32 len)
  rw [BitVec.toNat_ofNat, Nat.mod_eq_of_lt hlen] at hfinal
  have hvalue : fmix (BitVec.ofNat 32 len) u.acc = murmur3 bytes off len s.seed := by
    rw [huacc, hacc, murmur3, show len - 4 * (len / 4) = len % 4 by omega]
  exact ⟨_, ht.append (hu.append hfinal), hvalue, hvalue, rfl⟩

/-- Settles O54: the run of the statements from an empty queue of HOST. -/
theorem primitiveSequenceIsMurmur3 : Obligations.PrimitiveSequenceIsMurmur3 := by
  intro s bytes off len hinv hb hf hh hts hlen
  obtain ⟨t, ⟨hquiet, ops, hasm, hruns⟩, hres, hacc, hd⟩ :=
    stmtsRun_primitiveStmts (quiet_of_inv hinv hb hf hh hts) bytes off (len := len) (by omega)
  have hrun := hruns []
  rw [List.append_nil] at hrun
  exact ⟨ops, hasm, _, hrun, hres, hacc, hd, hquiet.no_fault⟩

end Sys2Proof.Machine
end

section
/-! SUPPORT. Noninterference in S.h: two states that differ only in S.h take the same step but for S.h,
where SEQ does not complete a HASH (R36, R234). -/

namespace Sys2Proof.Machine

/-- The state with `x` for S.h. -/
def withH (x : Word) (s : State) : State := { s with seq := { s.seq with h := x } }

/-- Where `o` answers a next state, `o'` answers the same but for S.h. -/
def SameButH (o o' : Outcome) : Prop := ∀ t, o = .next t → ∃ y, o' = .next (withH y t)

theorem sameButH_next {t t' : State} (y : Word) (h : t' = withH y t) :
    SameButH (.next t) (.next t') := by
  intro u hu
  cases hu
  exact ⟨y, by rw [h]⟩

/-! ### HOST's steps -/

/-- HASH's checks do not read S.h, and its start writes it from SEED. -/
theorem hashBody_withH (x : Word) (s : State) : ∃ y, hashBody (withH x s) = withH y (hashBody s) := by
  have hcond : hashBody (withH x s) =
      if negative s.offset then raiseFault .negOffset s.offset (withH x s)
      else if negative s.length then raiseFault .negLength s.length (withH x s)
      else if s.bufsize.toNat < s.offset.toNat + s.length.toNat then
        raiseFault .outOfBounds (BitVec.ofNat 32 (s.offset.toNat + s.length.toNat)) (withH x s)
      else startSequencer (withH x s) := rfl
  rw [hcond, hashBody]
  split
  · exact ⟨x, rfl⟩
  · split
    · exact ⟨x, rfl⟩
    · split
      · exact ⟨x, rfl⟩
      · exact ⟨s.seed, rfl⟩

theorem accepts_withH (x : Word) (s : State) (i : Instr) : accepts (withH x s) i = accepts s i := by
  cases i <;> rfl

theorem acceptedState_withH (x : Word) (s : State) (i : Instr) :
    ∃ y, acceptedState i (withH x s) = withH y (acceptedState i s) := by
  unfold acceptedState
  rw [accepts_withH]
  split
  case isFalse => exact ⟨x, rfl⟩
  case isTrue =>
    cases i with
    | hash => exact hashBody_withH x (clearDone s)
    | srst => exact ⟨0#32, rfl⟩
    | _ => exact ⟨x, rfl⟩

theorem hostWrite_withH (off : Offset) (w : Word) (x : Word) (s : State) :
    SameButH (hostWrite off w s) (hostWrite off w (withH x s)) := by
  unfold hostWrite
  cases regAt off with
  | none => exact sameButH_next x rfl
  | some r =>
    cases r with
    | cmd =>
      show SameButH (acceptWord w s) (acceptWord w (withH x s))
      unfold acceptWord
      cases hd : decode w with
      | ok i =>
        have hi := wellFormed_of_decode hd
        obtain ⟨y, hy⟩ := acceptedState_withH x s i
        simp only [exec_eq i _ hi]
        exact sameButH_next y hy
      | error e =>
        show SameButH (if s.status.fault then .next s else _)
          (if s.status.fault then .next (withH x s) else _)
        split
        · exact sameButH_next x rfl
        · exact sameButH_next x rfl
    | _ => exact sameButH_next x rfl

/-- No register reads S.h. -/
theorem hostReadValue_withH (off : Offset) (x : Word) (s : State) :
    hostReadValue off (withH x s) = hostReadValue off s := by
  unfold hostReadValue
  cases regAt off with
  | none => rfl
  | some r => cases r <;> rfl

theorem hostRead_withH (off : Offset) (x : Word) (s : State) :
    hostRead off (withH x s) = withH x (hostRead off s) := by
  rw [hostRead, hostReadValue_withH]
  rfl

theorem issue_withH (x : Word) (s : State) : SameButH (issue s) (issue (withH x s)) := by
  unfold issue
  rw [show (withH x s).host = s.host from rfl]
  cases s.host with
  | nil => exact sameButH_next x rfl
  | cons op rest =>
    cases op with
    | read off => exact sameButH_next x (hostRead_withH off x { s with host := rest })
    | write off w =>
      show SameButH (if s.status.busy then _ else hostWrite off w { s with host := rest })
        (if s.status.busy then _ else hostWrite off w (withH x { s with host := rest }))
      split
      · exact sameButH_next x rfl
      · exact hostWrite_withH off w x _
    | wait =>
      show SameButH (if (readReg .status s).getLsbD 0 then _ else _)
        (if (readReg .status s).getLsbD 0 then _ else _)
      split
      · exact sameButH_next x (hostRead_withH _ x s)
      · exact sameButH_next x (hostRead_withH _ x { s with host := rest })

theorem hostStep_withH (x : Word) (s : State) : SameButH (hostStep s) (hostStep (withH x s)) := by
  unfold hostStep
  rw [show (withH x s).held = s.held from rfl]
  cases s.held with
  | some wr => exact sameButH_next x rfl
  | none => exact issue_withH x s

/-! ### SEQ's step -/

theorem memRead_withH (a : Nat) (x : Word) (s : State) :
    memRead a (withH x s) = ((memRead a s).1, withH x (memRead a s).2) := by
  unfold memRead
  rw [show staleAt (withH x s) a = staleAt s a from rfl]
  split <;> rfl

/-- What reads came to, with `x` for S.h in the state they left. -/
def Fetch.withH (x : Word) : Fetch → Fetch
  | .bytes bs s => .bytes bs (Machine.withH x s)
  | .error a s => .error a (Machine.withH x s)
  | .hang => .hang
  | .outside a => .outside a

/-- The reads do not see S.h, by induction on their number. -/
theorem readBytes_withH (n a : Nat) (x : Word) (s : State) :
    readBytes n a (withH x s) = (readBytes n a s).withH x := by
  induction n generalizing a s with
  | zero => rfl
  | succ n ih =>
    unfold readBytes
    rw [memRead_withH]
    by_cases ha : Config.bufferSpace ≤ a
    · rw [if_pos ha, if_pos ha]
      rfl
    · rw [if_neg ha, if_neg ha]
      obtain ⟨v, t⟩ := memRead a s
      cases v with
      | err => rfl
      | withheld => rfl
      | ok b =>
        simp only [ih]
        cases readBytes n (a + 1) t <;> rfl

/-- What follows the reads does the same but for S.h, if what it does with the bytes read does. -/
theorem afterFetch_withH {x : Word} {s : State} {k : List Byte → State → State} {f : Fetch}
    {t : State} (ht : afterFetch s k f = .next t)
    (hk : ∀ bs u, k bs u = t → ∃ y, k bs (withH x u) = withH y t) :
    ∃ y, afterFetch (withH x s) k (f.withH x) = .next (withH y t) := by
  cases f with
  | bytes bs u =>
    obtain ⟨y, hy⟩ := hk bs u (Host.Outcome.next.inj ht)
    exact ⟨y, congrArg _ hy⟩
  | error a u =>
    cases ht
    exact ⟨x, rfl⟩
  | hang =>
    cases ht
    exact ⟨x, rfl⟩
  | outside a => cases ht

/-- SEQ's step does the same but for S.h, unless it completes a HASH. -/
theorem seqStep_withH {x : Word} {s t : State} (ht : seqStep s = .next t)
    (hfinal : s.seq.phase = .blk → s.seq.idx = s.seq.nb → t.status.done = false) :
    ∃ y, seqStep (withH x s) = .next (withH y t) := by
  cases hp : s.seq.phase with
  | idle =>
    have hidle (u : State) (hu : u.seq.phase = .idle) : seqStep u = .next u := by
      simp only [seqStep, hu]
    rw [hidle s hp] at ht
    cases ht
    exact ⟨x, hidle (withH x s) hp⟩
  | blk =>
    by_cases hi : s.seq.idx.toNat < s.seq.nb.toNat
    · rw [seqStep_block hp hi] at ht
      rw [seqStep_block (s := withH x s) hp hi]
      have hread := readBytes_withH 4 (s.offset.toNat + 4 * s.seq.idx.toNat) x s
      obtain ⟨y, hy⟩ := afterFetch_withH (x := x) ht fun bs u e =>
        ⟨mix (leWord 0 bs) x, by rw [← e]; rfl⟩
      exact ⟨y, (congrArg (afterFetch (withH x s) mixBlock) hread).trans hy⟩
    · by_cases he : s.seq.idx = s.seq.nb
      · rw [seqStep_final hp he] at ht
        rw [seqStep_final (s := withH x s) hp he]
        have hread := readBytes_withH (tailCount s.length) (s.offset.toNat + 4 * s.seq.nb.toNat) x s
        obtain ⟨y, hy⟩ := afterFetch_withH (x := x) ht fun bs u e =>
          absurd (congrArg (·.status.done) e) (by simp [hfinal hp he, finishHash])
        exact ⟨y, (congrArg (afterFetch (withH x s) finishHash) hread).trans hy⟩
      · simp [seqStep, hp, hi, he] at ht

/-! ### The step of the machine -/

/-- A held write is due and takes the step, or the turn is taken. -/
theorem heldFirst_cases (s : State) :
    (∃ wr, s.status.busy = false ∧ s.held = some wr) ∨ s.status.busy = true ∨ s.held = none := by
  cases s.status.busy <;> cases s.held <;> simp

/-- A turn that does the same but for S.h does so with a held write before it, too. -/
theorem heldFirst_withH {x : Word} {s t : State} {o o' : Outcome} (h : heldFirst s o = .next t)
    (ho : (s.status.busy = true ∨ s.held = none) → o = .next t → ∃ y, o' = .next (withH y t)) :
    ∃ y, heldFirst (withH x s) o' = .next (withH y t) := by
  rcases heldFirst_cases s with ⟨wr, hb, hh⟩ | hb | hh
  · rw [heldFirst_due hb hh] at h
    rw [heldFirst_due (s := withH x s) hb hh]
    exact hostWrite_withH wr.off wr.data x _ t h
  · rw [heldFirst_busy hb] at h
    rw [heldFirst_busy (s := withH x s) hb]
    exact ho (.inl hb) h
  · rw [heldFirst_none hh] at h
    rw [heldFirst_none (s := withH x s) hh]
    exact ho (.inr hh) h

/-- Every step but SEQ's completing one does the same but for S.h, by the turn that comes next. -/
theorem step_withH {x : Word} {s t : State} (ht : step s = .next t)
    (hfinal : s.FinalStepNext → t.status.done = false) :
    ∃ y, step (withH x s) = .next (withH y t) := by
  unfold step machineStep at ht ⊢
  rw [show (withH x s).turns = s.turns from rfl]
  split at ht
  next ts hts =>
    cases ht
    exact ⟨0#32, rfl⟩
  next a v ts hts =>
    cases ht
    exact ⟨x, rfl⟩
  next ts hts =>
    exact heldFirst_withH ht fun _ ho => hostStep_withH x { s with turns := ts } t ho
  next ts hts =>
    exact heldFirst_withH ht fun hdue ho => seqStep_withH (s := { s with turns := ts }) ho
      fun hp hi => hfinal ⟨hp, hi, .inr ⟨ts, hts⟩, hdue⟩
  next hts =>
    refine heldFirst_withH ht fun hdue ho => ?_
    rw [show (withH x s).seq.phase = s.seq.phase from rfl]
    cases hp : s.seq.phase with
    | blk =>
      rw [hp] at ho
      exact seqStep_withH ho fun _ hi => hfinal ⟨hp, hi, .inl hts, hdue⟩
    | idle =>
      rw [hp] at ho
      exact hostStep_withH x s t ho

/-- Settles O32: the step by the turn that comes next, the state of its answer read off. -/
theorem workingAccumulatorIsHidden : Obligations.WorkingAccumulatorIsHidden := by
  intro s t x ht hfinal
  obtain ⟨y, hy⟩ := step_withH (x := x) ht hfinal
  exact ⟨_, hy, rfl⟩

end Sys2Proof.Machine
end
